-- ==== Sys2Proof/Word.lean ====
section
/-!
DEFINITION. The widths of the values the field extractor holds (spec/00_scope.md R7 and R8, spec/10_state.md R10).
Every value is an unsigned bit vector (R9): `setWidth` is the spec's `zext`, `extractLsb'` its bit fields.
-/

namespace Sys2Proof

/-- A command word, the data-out register and the slicer's assembled word: 32 bits (R8 `CMD_W`, `DOUT_W`; R7 `WORD_W`). -/
abbrev Word := BitVec 32

/-- One element of `DIG` or of `BUF`, and the `DATA` operand (R11, R12, R47). -/
abbrev Byte := BitVec 8

/-- One seed value: an 11-bit field (R7 `FIELD_W`, R13). -/
abbrev SeedVal := BitVec 11

end Sys2Proof
end

