-- ==== Sys2Proof/Config.lean ====
section
/-!
DEFINITION. The parameters of spec/00_scope.md R7 and R8 and the error codes' names of spec/60_exceptions.md R74.
The spec fixes them all but one: `CMD_LATENCY` is OPEN, and is here a constant with no body. `DIG_LEN` 32, `BUF_LEN` 33 and
`N_SEED` 24 stand as numerals in the types of Machine/State.lean, and the widths in Word.lean.
-/

namespace Sys2Proof

/-- `FIELD_MASK` (R7), on the 32-bit word it masks. -/
abbrev Config.fieldMask : Word := 0x7FF#32

/-- `STEP_BITS`, the advance of the bit cursor (R7), in the width of `BIT_COUNT`. -/
abbrev Config.stepBits : BitVec 9 := 11#9

/-- `CMD_LATENCY` (R8, R95): the time from issuing a command to its completion, in whatever unit an implementation
counts. DESIGN CHOICE, safe: OPEN in the spec, so it has no value here, and no step reads it (log entry 5). -/
opaque Config.cmdLatency : Nat

/-- The causes of an error (R74), one constructor for each code a command can raise. -/
inductive ErrorCode where
  /-- `OP` is 0xB..0xF (R50). -/
  | illegalOp
  /-- A bit that must be 0 for the command's `OP` is 1 (R48). -/
  | rsvNonzero
  /-- `IDX` is at or above the element count of the command's space (R31). -/
  | indexRange
  /-- `STEP` or `RUN` is issued when `K = 24` (R60, R61). -/
  | sequence
  /-- `RSEED idx` with `idx < 24` and `idx >= K` (R67). -/
  | notReady
  deriving DecidableEq, Repr

end Sys2Proof
end

