-- ==== Sys2Proof/Syntax.lean ====
section
/-!
DEFINITION. The commands of the field extractor: one constructor per row of spec/opcode_table.json (spec/30_encoding.md R49).
`idx` is the index operand as R46 assembles it, zero-extended to 8 bits; `data` is the byte operand of R47.
-/

namespace Sys2Proof

/-- A decoded command (R49). The commands name no registers (R23): their only operands are `IDX` and `DATA`. -/
inductive Instr where
  /-- `NOP` (R71). -/
  | nop
  /-- `WDIG idx, data` (R55). -/
  | wdig (idx data : Byte)
  /-- `WBUF idx, data` (R56). -/
  | wbuf (idx data : Byte)
  /-- `ASM` (R57). -/
  | asm
  /-- `STEP` (R60). -/
  | step
  /-- `RUN` (R61). -/
  | run
  /-- `RSEED idx` (R67). -/
  | rseed (idx : Byte)
  /-- `RBUF idx` (R68). -/
  | rbuf (idx : Byte)
  /-- `RDIG idx` (R69). -/
  | rdig (idx : Byte)
  /-- `RSTAT` (R70). -/
  | rstat
  /-- `CLR` (R72). -/
  | clr
  deriving DecidableEq, Repr

end Sys2Proof
end

