-- ==== Sys2Proof/WellFormed.lean ====
section
/-!
DEFINITION. Which commands an encoding can hold. `IDX` has 6 bits (spec/30_encoding.md R44, R46), so an index is at most 63;
R53 has the assembler reject any other. `DATA` fills its field exactly. An index that fits the field but not its space is
well formed: it encodes, and raises `INDEX_RANGE` when it executes (R53).
-/

namespace Sys2Proof

/-- The index fits the 6-bit `IDX` field (R46). -/
def fitsIdx (idx : Byte) : Bool := decide (idx.toNat ≤ 63)

/-- Every operand of the command fits its field. -/
def Instr.wf : Instr → Bool
  | .nop => true
  | .wdig idx _ => fitsIdx idx
  | .wbuf idx _ => fitsIdx idx
  | .asm => true
  | .step => true
  | .run => true
  | .rseed idx => fitsIdx idx
  | .rbuf idx => fitsIdx idx
  | .rdig idx => fitsIdx idx
  | .rstat => true
  | .clr => true

end Sys2Proof
end

