-- ==== Sys2Proof/Decode.lean ====
section
/-!
DEFINITION. Decoding and encoding of command words (spec/30_encoding.md R43 to R53). Every 32-bit word decodes to exactly one
command or raises exactly one of `ILLEGAL_OP` and `RSV_NONZERO`.
-/

namespace Sys2Proof

/-- `OP = cmd[31:28]` (R44, R45). -/
def opField (w : Word) : BitVec 4 := w.extractLsb' 28 4

/-- `IDX = zext_8(cmd[21:16])` (R46). -/
def idxField (w : Word) : Byte := (w.extractLsb' 16 6).setWidth 8

/-- `DATA = cmd[7:0]` (R47). -/
def dataField (w : Word) : Byte := w.extractLsb' 0 8

/-- One row of R49: the bits the command fixes, their values, and the command read from `IDX` and `DATA`. -/
structure OpcodeRow where
  /-- The row's `match`. -/
  pattern : Word
  /-- The row's `mask`. -/
  mask : Word
  /-- The command of the row. -/
  build : Byte → Byte → Instr

/-- The opcode map of R49, in the order of `OP`, which is the row's place in the list. -/
def opcodeMap : List OpcodeRow :=
  [ ⟨0x00000000#32, 0xFFFFFFFF#32, fun _ _ => .nop⟩,
    ⟨0x10000000#32, 0xFFC0FF00#32, fun idx data => .wdig idx data⟩,
    ⟨0x20000000#32, 0xFFC0FF00#32, fun idx data => .wbuf idx data⟩,
    ⟨0x30000000#32, 0xFFFFFFFF#32, fun _ _ => .asm⟩,
    ⟨0x40000000#32, 0xFFFFFFFF#32, fun _ _ => .step⟩,
    ⟨0x50000000#32, 0xFFFFFFFF#32, fun _ _ => .run⟩,
    ⟨0x60000000#32, 0xFFC0FFFF#32, fun idx _ => .rseed idx⟩,
    ⟨0x70000000#32, 0xFFC0FFFF#32, fun idx _ => .rbuf idx⟩,
    ⟨0x80000000#32, 0xFFC0FFFF#32, fun idx _ => .rdig idx⟩,
    ⟨0x90000000#32, 0xFFFFFFFF#32, fun _ _ => .rstat⟩,
    ⟨0xA0000000#32, 0xFFFFFFFF#32, fun _ _ => .clr⟩ ]

/-- `Decode` (R51), the two checks in the order written: the opcode alone, then the row's mask. -/
def decode (w : Word) : Except ErrorCode Instr :=
  match opcodeMap[(opField w).toNat]? with
  | none => .error .illegalOp
  | some row =>
    if w &&& row.mask = row.pattern then .ok (row.build (idxField w) (dataField w))
    else .error .rsvNonzero

/-- `OP << 28 | idx << 16 | data` (R53), with every reserved bit 0 (R48). -/
def placeFields (op idx data : Word) : Word := op <<< 28 ||| idx <<< 16 ||| data

/-- The word of a command (R49, R53). -/
def encode : Instr → Word
  | .nop => placeFields 0x0#32 0#32 0#32
  | .wdig idx data => placeFields 0x1#32 (idx.setWidth 32) (data.setWidth 32)
  | .wbuf idx data => placeFields 0x2#32 (idx.setWidth 32) (data.setWidth 32)
  | .asm => placeFields 0x3#32 0#32 0#32
  | .step => placeFields 0x4#32 0#32 0#32
  | .run => placeFields 0x5#32 0#32 0#32
  | .rseed idx => placeFields 0x6#32 (idx.setWidth 32) 0#32
  | .rbuf idx => placeFields 0x7#32 (idx.setWidth 32) 0#32
  | .rdig idx => placeFields 0x8#32 (idx.setWidth 32) 0#32
  | .rstat => placeFields 0x9#32 0#32 0#32
  | .clr => placeFields 0xA#32 0#32 0#32

/-- The command word of an opcode-table row's bits: every command is one 32-bit word (R43), and bits above the `nbits` given
are 0. -/
def tableWord (nbits w : Nat) : Word := BitVec.ofNat 32 (w % 2 ^ nbits)

/-- What the decoder reads from the `nbits` bits `w`; none where the word raises a decode error, or where more bits are given
than a command has (R43; log entry 12). -/
def decodeTableWord (nbits w : Nat) : Option Instr :=
  if nbits ≤ 32 then
    match decode (tableWord nbits w) with
    | .ok i => some i
    | .error _ => none
  else none

end Sys2Proof
end

