-- ==== Sys2Proof/Machine/State.lean ====
section
/-!
DEFINITION. The state of the field extractor: the tuple of spec/10_state.md R10, element by element, and one field of the
model's own, the host's pending inputs (log entry 1). The block has no other state (R23, R24, R25).
-/

namespace Sys2Proof.Machine

open Sys2Proof

/-- What the host can do to the block (R40, R87): issue one command word, or assert the reset input between commands. -/
inductive HostInput where
  /-- One 32-bit word on the command port. -/
  | command (w : Word)
  /-- An assertion of `RST`; power-on is one (R87). -/
  | rst
  deriving DecidableEq, Repr

/-- The state of R10 and the host's pending inputs. -/
structure State where
  /-- `DIG`, the digest register (R11). -/
  dig : Vector Byte 32
  /-- `BUF`, the checksum buffer (R12). -/
  buf : Vector Byte 33
  /-- `SEED`, the seed array (R13): a cell that no iteration has written since reset holds no value (log entry 2). -/
  seed : Vector (Option SeedVal) 24
  /-- `K`, the iteration count (R14). -/
  k : BitVec 5
  /-- `BIT_COUNT` (R15). -/
  bitCount : BitVec 9
  /-- `BYTE_OFFSET` (R16). -/
  byteOffset : BitVec 6
  /-- `BIT_SHIFT` (R17). -/
  bitShift : BitVec 3
  /-- `ZF`, the zero-field flag (R19). -/
  zf : Bool
  /-- `ERR`, the error latch (R20). -/
  err : BitVec 3
  /-- `DOUT`, the data-out register (R21). -/
  dout : Word
  /-- The model's own field: what the host will do next, oldest first (R24, R40; log entry 1). -/
  inputs : List HostInput
  deriving DecidableEq, Repr

/-- Where the model stops. Neither place is reached from reset: both need a state the spec says does not occur. -/
inductive Fault where
  /-- Raised by `STEP` and `RUN` when `K` is 25..31. Safe: `Iter()` is defined only when `K < 24` (R59), `SEQUENCE` is raised
  only at `K = 24` (R74), and the values 25..31 never occur (R14; log entry 3). -/
  | iterationUndefined
  /-- Raised by `RSEED idx` when `idx < 24` and `idx < K` but the cell holds no value. Safe: such an element was written by an
  iteration (R13), so no run reaches such a state (log entry 4). -/
  | seedWithoutValue
  deriving DecidableEq, Repr

/-- Why the model could decline a command. -/
inductive Refusal where
  /-- Raised only by an arm of `exec` for a command that has no meaning in the model. Safe. No arm of this model is one. -/
  | notModelled (mnemonic : String)
  deriving DecidableEq, Repr

/-- The reset state of R27 and R88, with no host input pending. -/
def State.reset : State where
  dig := Vector.replicate 32 0x00#8
  buf := Vector.replicate 33 0x00#8
  seed := Vector.replicate 24 none
  k := 0#5
  bitCount := 0#9
  byteOffset := 0#6
  bitShift := 0#3
  zf := false
  err := 0#3
  dout := 0x00000000#32
  inputs := []

end Sys2Proof.Machine
end

