-- ==== Sys2Proof/Machine/Ops.lean ====
section
/-!
DEFINITION. The named operations over the state: the error latch that every error goes through (spec/60_exceptions.md R76),
the data-out register, the cursor reset and the full reset, and the reads of `BUF` and `SEED`.
-/

namespace Sys2Proof.Machine

open Sys2Proof

/-- What a command or a step answers. -/
abbrev Result := Host.Outcome State Fault Refusal

/-- The value `ERR` holds for each error (R74). -/
def errorBits : ErrorCode → BitVec 3
  | .illegalOp => 1#3
  | .rsvNonzero => 2#3
  | .indexRange => 3#3
  | .sequence => 4#3
  | .notReady => 5#3

/-- The latch of R76: the first error is kept, and nothing else changes. -/
def State.latch (s : State) (c : ErrorCode) : State :=
  if s.err = 0#3 then { s with err := errorBits c } else s

/-- `raise Error(code)` (R9, R76, R77): the command ends with no effect but the latch, and the machine goes on (R79). -/
def raise (c : ErrorCode) (s : State) : Result := .next (s.latch c)

/-- `DOUT <- zext_32(v)` (R36). -/
def State.answer {w : Nat} (s : State) (v : BitVec w) : State := { s with dout := v.setWidth 32 }

/-- `CursorReset()` (R58). `SEED` keeps its contents, none of them valid any more. -/
def State.cursorReset (s : State) : State :=
  { s with k := 0#5, bitCount := 0#9, byteOffset := 0#6, bitShift := 0#3, zf := false }

/-- The state `CLR` and `RST` produce: the reset state of R27 (R72, R87). What the host will do next is not the block's, and
stays. -/
def State.clear (s : State) : State := { State.reset with inputs := s.inputs }

/-- `SEED[i]` as a command may see it: the element's value when it is valid, `i < K`, and no value otherwise (R13, I2). -/
def State.seedAt (s : State) (i : Fin 24) : Option SeedVal :=
  if i.val < s.k.toNat then s.seed[i] else none

/-- `G(i)`, the slicer's only read of `BUF` (R33): past the last byte it reads zero and raises nothing. -/
def guardedRead (buf : Vector Byte 33) (i : Nat) : Byte :=
  if h : i < 33 then buf[i] else 0x00#8

/-- `LEWord(o)` (R34): four guarded bytes, the lowest index least significant. -/
def leWord (buf : Vector Byte 33) (o : Nat) : Word :=
  (guardedRead buf o).setWidth 32
    ||| (guardedRead buf (o + 1)).setWidth 32 <<< 8
    ||| (guardedRead buf (o + 2)).setWidth 32 <<< 16
    ||| (guardedRead buf (o + 3)).setWidth 32 <<< 24

/-- `S(BUF)`, the 264-bit stream (R35): byte `i` at weight `2^(8 i)`. A view; no command is defined by it (R64). -/
def bitstream (buf : Vector Byte 33) : BitVec 264 :=
  (List.finRange 33).foldl
    (fun (acc : BitVec 264) (i : Fin 33) => acc + (buf[i]).setWidth 264 <<< (8 * i.val)) 0#264

end Sys2Proof.Machine
end

