-- ==== Sys2Proof/Machine/Assemble.lean ====
section
/-!
DEFINITION. The checksum-buffer assembly `ASM` (spec/41_assemble.md).
-/

namespace Sys2Proof.Machine

open Sys2Proof

/-- The buffer of R57: the digest reversed, then a copy of digest byte 31 (C1, C4). -/
def reversedWithChecksum (dig : Vector Byte 32) : Vector Byte 33 :=
  Vector.ofFn fun i => if h : i.val ≤ 31 then dig[31 - i.val]'(by omega) else dig[31]

/-- `ASM` (R57): all 33 bytes and the cursor reset, in one step (R39). -/
def execAsm (s : State) : Result :=
  .next { s with buf := reversedWithChecksum s.dig }.cursorReset

end Sys2Proof.Machine
end

