-- ==== Sys2Proof/Machine/Control.lean ====
section
/-!
DEFINITION. The control commands `NOP` and `CLR` (spec/44_control.md).
-/

namespace Sys2Proof.Machine

open Sys2Proof

/-- `NOP` (R71): no effect, not even on `ERR`. -/
def execNop (s : State) : Result := .next s

/-- `CLR` (R72): exactly the reset state; the only command that clears `ERR` (R80). -/
def execClr (s : State) : Result := .next s.clear

end Sys2Proof.Machine
end

