-- ==== Sys2Proof/Machine/Flags.lean ====
section
/-!
DEFINITION. The flags `DONE` and `ZF` and the status word (spec/10_state.md R19, R22, R26).
-/

namespace Sys2Proof.Machine

open Sys2Proof

/-- `DONE = (K = 24)`, not stored (R22). -/
def State.done (s : State) : Bool := s.k == 24#5

/-- `ZF` after an iteration that stores `v` (R19, R59): set by a zero, otherwise kept. -/
def zfAfter (zf : Bool) (v : SeedVal) : Bool := zf || v == 0#11

/-- `STATUS` (R26), its fields and its reserved zero bits from bit 31 down. -/
def State.status (s : State) : Word :=
  s.bitCount ++ 0#1 ++ s.byteOffset ++ 0#1 ++ s.bitShift ++ 0#1 ++ s.err ++ 0#1
    ++ BitVec.ofBool s.zf ++ BitVec.ofBool s.done ++ s.k

end Sys2Proof.Machine
end

