-- ==== Sys2Proof/Machine/Extract.lean ====
section
/-!
DEFINITION. The extraction commands `STEP` and `RUN` (spec/42_extract.md), both over the one iteration of R59.
-/

namespace Sys2Proof.Machine

open Sys2Proof

/-- Steps 1 and 2 of R59: the word at a byte offset, shifted and masked to 11 bits. -/
def fieldAt (buf : Vector Byte 33) (byteOffset : BitVec 6) (bitShift : BitVec 3) : SeedVal :=
  ((leWord buf byteOffset.toNat >>> bitShift.toNat) &&& Config.fieldMask).extractLsb' 0 11

/-- `floor(BIT_COUNT / 8)`, which fits the 6 bits of `BYTE_OFFSET` (R16, R59 step 4). -/
def byteOffsetOf (bitCount : BitVec 9) : BitVec 6 := (bitCount / 8#9).setWidth 6

/-- `BIT_COUNT - BYTE_OFFSET * 8`, which fits the 3 bits of `BIT_SHIFT` (R17, R59 step 4). -/
def bitShiftOf (bitCount : BitVec 9) (byteOffset : BitVec 6) : BitVec 3 :=
  (bitCount - byteOffset.setWidth 9 * 8#9).setWidth 3

/-- `Iter()` (R59), for a state with `K < 24`. Its callers check that. -/
def iter (s : State) : State :=
  let v := fieldAt s.buf s.byteOffset s.bitShift
  let bitCount := s.bitCount + Config.stepBits
  let byteOffset := byteOffsetOf bitCount
  { s with
    seed := s.seed.setIfInBounds s.k.toNat (some v)
    zf := zfAfter s.zf v
    k := s.k + 1#5
    bitCount := bitCount
    byteOffset := byteOffset
    bitShift := bitShiftOf bitCount byteOffset }

/-- `while K < 24: Iter()` (R61), at most `fuel` times. -/
def iterWhile : Nat → State → State
  | 0, s => s
  | fuel + 1, s => if s.k < 24#5 then iterWhile fuel (iter s) else s

/-- The check that `STEP` and `RUN` share (R60, R61): `SEQUENCE` when `K = 24`, the iterations when `K < 24`; `K` above 24 does
not occur (R14; log entry 3). -/
def extraction (iterations : State → State) (s : State) : Result :=
  if s.k = 24#5 then raise .sequence s
  else if s.k < 24#5 then .next (iterations s)
  else .fault .iterationUndefined

/-- `STEP` (R60): one iteration. -/
def execStep (s : State) : Result := extraction iter s

/-- `RUN` (R61): every remaining iteration, as one step. From `K < 24` there are at most 24. -/
def execRun (s : State) : Result := extraction (iterWhile 24) s

end Sys2Proof.Machine
end

