-- ==== Sys2Proof/Machine/Operands.lean ====
section
/-!
DEFINITION. The one operand form that can fail: an element index of an index space (spec/20_memory.md R30, R31, R37).
`DATA` is used as it is (spec/30_encoding.md R47).
-/

namespace Sys2Proof.Machine

open Sys2Proof

/-- An index operand of a space of `size` elements (R31): at or above the size it raises `INDEX_RANGE` and the command has no
effect; below it names the element. No index wraps. -/
def withIndex (size : Nat) (idx : Byte) (s : State) (run : Fin size → Result) : Result :=
  if h : idx.toNat < size then run ⟨idx.toNat, h⟩ else raise .indexRange s

end Sys2Proof.Machine
end

