-- ==== Sys2Proof/Machine/Load.lean ====
section
/-!
DEFINITION. The load commands `WDIG` and `WBUF` (spec/40_load.md).
-/

namespace Sys2Proof.Machine

open Sys2Proof

/-- `WDIG idx, data` (R55): one digest byte. `BUF` does not follow (R91). -/
def execWdig (idx data : Byte) (s : State) : Result :=
  withIndex 32 idx s fun i => .next { s with dig := s.dig.set i data }

/-- `WBUF idx, data` (R56): one buffer byte, and the cursor reset, even where the byte is the one already there. -/
def execWbuf (idx data : Byte) (s : State) : Result :=
  withIndex 33 idx s fun i => .next { s with buf := s.buf.set i data }.cursorReset

end Sys2Proof.Machine
end

