-- ==== Sys2Proof/Machine/Readback.lean ====
section
/-!
DEFINITION. The readback commands `RSEED`, `RBUF`, `RDIG` and `RSTAT` (spec/43_readback.md). Each writes `DOUT` when it succeeds
and changes nothing else (spec/20_memory.md R41).
-/

namespace Sys2Proof.Machine

open Sys2Proof

/-- `RSEED idx` (R67): `INDEX_RANGE` first, then `NOT_READY` (R78), then the value, zero like any other. -/
def execRseed (idx : Byte) (s : State) : Result :=
  withIndex 24 idx s fun i =>
    if s.k.toNat ≤ i.val then raise .notReady s
    else
      match s.seedAt i with
      | some v => .next (s.answer v)
      | none => .fault .seedWithoutValue

/-- `RBUF idx` (R68): the byte itself; an index past the buffer is an error, not the slicer's zero (I8). -/
def execRbuf (idx : Byte) (s : State) : Result :=
  withIndex 33 idx s fun i => .next (s.answer s.buf[i])

/-- `RDIG idx` (R69): the digest byte in its original order. -/
def execRdig (idx : Byte) (s : State) : Result :=
  withIndex 32 idx s fun i => .next (s.answer s.dig[i])

/-- `RSTAT` (R70): the status word; it clears neither `ERR` nor `ZF`. -/
def execRstat (s : State) : Result := .next (s.answer s.status)

end Sys2Proof.Machine
end

