-- ==== Sys2Proof/Machine/Dispatch.lean ====
section
/-!
DEFINITION. The meaning of each command: one arm per row of spec/30_encoding.md R49.
-/

namespace Sys2Proof.Machine

open Sys2Proof

def exec (i : Instr) (s : State) : Host.Outcome State Fault Refusal :=
  match i with
  | .nop => Sys2Proof.Machine.execNop s
  | .wdig idx data => Sys2Proof.Machine.execWdig idx data s
  | .wbuf idx data => Sys2Proof.Machine.execWbuf idx data s
  | .asm => Sys2Proof.Machine.execAsm s
  | .step => Sys2Proof.Machine.execStep s
  | .run => Sys2Proof.Machine.execRun s
  | .rseed idx => Sys2Proof.Machine.execRseed idx s
  | .rbuf idx => Sys2Proof.Machine.execRbuf idx s
  | .rdig idx => Sys2Proof.Machine.execRdig idx s
  | .rstat => Sys2Proof.Machine.execRstat s
  | .clr => Sys2Proof.Machine.execClr s

end Sys2Proof.Machine
end

