-- ==== Sys2Proof/Machine/Issue.lean ====
section
/-!
DEFINITION. How the block takes what the host does: a command word is decoded and executed, or raises its decode error; `RST`
resets (spec/30_encoding.md R51, spec/70_reset_and_hazards.md R87, R96). Each is one indivisible step (spec/20_memory.md R39).
-/

namespace Sys2Proof.Machine

open Sys2Proof

/-- One command word (R51): a decode error is taken before any check of the command's own (R78). -/
def issue (w : Word) (s : State) : Result :=
  match decode w with
  | .error c => raise c s
  | .ok i => exec i s

/-- One input of the host. -/
def accept (x : HostInput) (s : State) : Result :=
  match x with
  | .command w => issue w s
  | .rst => .next s.clear

/-- The next pending input, in issue order (R40). With none pending nothing happens (R82; log entry 6). -/
def acceptNext (s : State) : Result :=
  match s.inputs with
  | [] => .next s
  | x :: rest => accept x { s with inputs := rest }

/-- The readback commands, the only ones that write `DOUT` but `CLR` (R21). -/
def readsBack : Instr → Bool
  | .nop => false
  | .wdig _ _ => false
  | .wbuf _ _ => false
  | .asm => false
  | .step => false
  | .run => false
  | .rseed _ => true
  | .rbuf _ => true
  | .rdig _ => true
  | .rstat => true
  | .clr => false

/-- The word is a readback command, after which the host reads `DOUT` (R21, R96; log entry 8). -/
def isReadback (w : Word) : Bool :=
  match decode w with
  | .ok i => readsBack i
  | .error _ => false

/-- A run and its observation (R96): the `DOUT` values after each readback command, in order, with the final state. -/
def runCommands : List Word → State → Host.Outcome (List Word × State) Fault Refusal
  | [], s => .next ([], s)
  | w :: ws, s =>
    match issue w s with
    | .next s' =>
      match runCommands ws s' with
      | .next (douts, t) => .next (if isReadback w then s'.dout :: douts else douts, t)
      | .fault r => .fault r
      | .refused r => .refused r
    | .fault r => .fault r
    | .refused r => .refused r

end Sys2Proof.Machine
end

