-- ==== Sys2Proof/Machine/Assembly.lean ====
section
/-!
DEFINITION. The assembler's side of spec/30_encoding.md: the lines of R53 and the pseudo-instructions of R54, from text to command
words. A line the assembler rejects is `none`. What R53 leaves open of the text's form is in log entry 9.
-/

namespace Sys2Proof.Machine

open Sys2Proof

/-- The pseudo-instructions of R54 and their operands. -/
inductive Pseudo where
  /-- `LDIG b0, ..., b31`. -/
  | ldig (bytes : Vector Byte 32)
  /-- `LBUF b0, ..., b32`. -/
  | lbuf (bytes : Vector Byte 33)
  /-- `FILLBUF v`. -/
  | fillbuf (v : Byte)
  /-- `EXTRACT`. -/
  | extract
  /-- `RSEEDS`. -/
  | rseeds
  deriving DecidableEq, Repr

/-- The expansion of R54, in the order written. -/
def expand : Pseudo → List Instr
  | .ldig bytes => (List.finRange 32).map fun i => .wdig (BitVec.ofNat 8 i.val) bytes[i]
  | .lbuf bytes => (List.finRange 33).map fun i => .wbuf (BitVec.ofNat 8 i.val) bytes[i]
  | .fillbuf v => (List.finRange 33).map fun i => .wbuf (BitVec.ofNat 8 i.val) v
  | .extract => [.asm, .run]
  | .rseeds => (List.finRange 24).map fun i => .rseed (BitVec.ofNat 8 i.val)

/-- A number that fits the 8-bit `DATA` field (R53). -/
def asByte (n : Nat) : Option Byte := if n ≤ 255 then some (BitVec.ofNat 8 n) else none

/-- A number that fits the 6-bit `IDX` field (R53); whether it is in range of its space is not the assembler's matter. -/
def asIndex (n : Nat) : Option Byte := if n ≤ 63 then some (BitVec.ofNat 8 n) else none

/-- A line with no operand. -/
def lineNone (i : Instr) : List Nat → Option (List Word)
  | [] => some [encode i]
  | _ => none

/-- A line with an index. -/
def lineIndex (build : Byte → Instr) : List Nat → Option (List Word)
  | [n] => (asIndex n).map fun idx => [encode (build idx)]
  | _ => none

/-- A line with an index and a byte. -/
def lineIndexData (build : Byte → Byte → Instr) : List Nat → Option (List Word)
  | [n, d] =>
    match asIndex n, asByte d with
    | some idx, some data => some [encode (build idx data)]
    | _, _ => none
  | _ => none

/-- The words of a pseudo-instruction. -/
def linePseudo (p : Pseudo) : List Word := (expand p).map encode

/-- A pseudo-instruction of exactly `len` bytes. -/
def lineBytes (len : Nat) (build : Vector Byte len → Pseudo) (ops : List Nat) : Option (List Word) :=
  match ops.mapM asByte with
  | some bytes => if h : bytes.length = len then some (linePseudo (build ⟨bytes.toArray, by simpa using h⟩)) else none
  | none => none

/-- `FILLBUF v`. -/
def lineFill : List Nat → Option (List Word)
  | [v] => (asByte v).map fun b => linePseudo (.fillbuf b)
  | _ => none

/-- A pseudo-instruction with no operand. -/
def linePlain (p : Pseudo) : List Nat → Option (List Word)
  | [] => some (linePseudo p)
  | _ => none

/-- `.word n`: one command word given as a number (95_test_vectors.md P3). -/
def lineWord : List Nat → Option (List Word)
  | [n] => if n < 2 ^ 32 then some [BitVec.ofNat 32 n] else none
  | _ => none

/-- The lines of R53 and R54, by mnemonic. -/
def lineForms : List (String × (List Nat → Option (List Word))) :=
  [ ("NOP", lineNone .nop), ("WDIG", lineIndexData .wdig), ("WBUF", lineIndexData .wbuf), ("ASM", lineNone .asm),
    ("STEP", lineNone .step), ("RUN", lineNone .run), ("RSEED", lineIndex .rseed), ("RBUF", lineIndex .rbuf),
    ("RDIG", lineIndex .rdig), ("RSTAT", lineNone .rstat), ("CLR", lineNone .clr),
    ("LDIG", lineBytes 32 .ldig), ("LBUF", lineBytes 33 .lbuf), ("FILLBUF", lineFill),
    ("EXTRACT", linePlain .extract), ("RSEEDS", linePlain .rseeds), (".WORD", lineWord) ]

/-- The character separates words on a line. -/
def isBlank (c : Char) : Bool := c == ' ' || c == '\t' || c == '\r'

/-- The text without blanks at either end. -/
def trimBlanks (cs : List Char) : List Char := ((cs.dropWhile isBlank).reverse.dropWhile isBlank).reverse

/-- The pieces of a text between the separators. -/
def piecesAt (sep : Char) : List Char → List (List Char)
  | [] => [[]]
  | c :: cs =>
    if c = sep then [] :: piecesAt sep cs
    else
      match piecesAt sep cs with
      | [] => [[c]]
      | piece :: rest => (c :: piece) :: rest

/-- The value of a digit, letters standing for ten to fifteen. -/
def digitValue (c : Char) : Option Nat :=
  let n := c.toUpper.toNat
  if 48 ≤ n ∧ n ≤ 57 then some (n - 48)
  else if 65 ≤ n ∧ n ≤ 70 then some (n - 55)
  else none

/-- One more digit of a number. -/
def appendDigit (base : Nat) (acc : Option Nat) (c : Char) : Option Nat :=
  match acc, digitValue c with
  | some n, some d => if d < base then some (n * base + d) else none
  | _, _ => none

/-- A number of at least one digit. -/
def readDigits (base : Nat) : List Char → Option Nat
  | [] => none
  | cs => cs.foldl (appendDigit base) (some 0)

/-- A decimal number, or a hexadecimal one after `0x` (R53). -/
def readNumber : List Char → Option Nat
  | '0' :: 'x' :: digits => readDigits 16 digits
  | digits => readDigits 10 digits

/-- The numbers between commas; nothing at all is no operand. -/
def readOperands (cs : List Char) : Option (List Nat) :=
  match trimBlanks cs with
  | [] => some []
  | text => (piecesAt ',' text).mapM fun piece => readNumber (trimBlanks piece)

/-- One line (R53): `;` starts a comment, the mnemonic is case-insensitive, and an empty line is no command. -/
def assembleLine (line : List Char) : Option (List Word) :=
  match trimBlanks (line.takeWhile (· != ';')) with
  | [] => some []
  | text =>
    let name := text.takeWhile (!isBlank ·)
    match lineForms.find? (fun form => form.1.toList == name.map Char.toUpper), readOperands (text.drop name.length) with
    | some form, some ops => form.2 ops
    | _, _ => none

/-- A program's text, one command a line (R53), as the words the host issues. -/
def assembleText (text : List Char) : Option (List Word) :=
  ((piecesAt '\n' text).mapM assembleLine).map List.flatten

end Sys2Proof.Machine
end

