-- ==== Sys2Proof/Safety.lean ====
section
/-!
DEFINITION. What holds of a state of a safe run, in the terms the statements use: the invariants of the cursor, of the error
latch, and of the valid seeds and `ZF` (spec/10_state.md R13, R14, R18, R19, spec/42_extract.md R64, spec/60_exceptions.md R74),
and when two states differ only where no command can look (spec/70_reset_and_hazards.md R97).
-/

namespace Sys2Proof.Machine

open Sys2Proof

/-- The cursor invariant (R18), with the range of `K` (R14). -/
abbrev State.CursorInv (s : State) : Prop :=
  s.k.toNat ≤ 24
    ∧ s.bitCount.toNat = 11 * s.k.toNat
    ∧ s.byteOffset.toNat = s.bitCount.toNat / 8
    ∧ s.bitShift.toNat = s.bitCount.toNat % 8

/-- `ERR` holds 0 or a code of R74; 6 and 7 are never written. -/
abbrev State.ErrInv (s : State) : Prop := s.err.toNat ≤ 5

/-- Bits `11j + 10` down to `11j` of the bitstream (R64). -/
def streamField (buf : Vector Byte 33) (j : Nat) : SeedVal := (bitstream buf).extractLsb' (11 * j) 11

/-- Every valid seed holds its field of the present buffer (R13, R64, D8). -/
abbrev State.SeedInv (s : State) : Prop :=
  ∀ j : Fin 24, j.val < s.k.toNat → s.seed[j] = some (streamField s.buf j.val)

/-- `ZF` is set exactly when some valid seed is 0 (R19, R86). -/
abbrev State.ZfInv (s : State) : Prop :=
  s.zf = true ↔ ∃ j : Fin 24, j.val < s.k.toNat ∧ s.seed[j] = some 0#11

/-- The invariants together. -/
abbrev State.Inv (s : State) : Prop := s.CursorInv ∧ s.ErrInv ∧ s.SeedInv ∧ s.ZfInv

/-- The two states differ at most in the contents of invalid seed elements (R97). -/
def State.AgreeOnValid (s t : State) : Prop :=
  { t with seed := s.seed } = s ∧ ∀ j : Fin 24, s.seedAt j = t.seedAt j

end Sys2Proof.Machine
end

