-- ==== Sys2Proof/Certificates/Slice0/Obligations.lean ====
section
/-!
DEFINITION. The statements for the provers, from the numbered rules of spec/. `Sys2Proof.Claims` holds what several statements
share, each written anew from the rule it names and not from the model's own definition of the same thing.
-/

namespace Sys2Proof.Claims

open Sys2Proof Sys2Proof.Machine

/-- The state after `raise Error(code)`: `ERR` takes the code if it was 0, and nothing else happens (R76, R77). -/
def afterError (code : BitVec 3) (s : State) : State := if s.err = 0#3 then { s with err := code } else s

/-- The words of a row of R49 run its command with `IDX` zero-extended to 8 bits and `DATA` (R46, R47); any other word with the
same `OP` raises `RSV_NONZERO` (R48, R51), code 2. -/
def encodedAs (pattern mask : Word) (build : Byte → Byte → Instr) : Prop :=
  ∀ (w : Word) (s : State),
    (w &&& mask = pattern → issue w s = exec (build ((w.extractLsb' 16 6).setWidth 8) (w.extractLsb' 0 8)) s)
      ∧ (w >>> 28 = pattern >>> 28 → w &&& mask ≠ pattern → issue w s = .next (afterError 2#3 s))

/-- `BUF[i]` as a number, 0 from index 33 on (R33). -/
def byteOrZero (buf : Vector Byte 33) (i : Nat) : Nat := (buf[i]?.getD 0#8).toNat

/-- The four bytes from `o` on as a number, lowest index least significant (R34), shifted right and cut to 11 bits (R59). -/
def fieldValue (buf : Vector Byte 33) (o shift : Nat) : Nat :=
  ((byteOrZero buf o + 2 ^ 8 * byteOrZero buf (o + 1) + 2 ^ 16 * byteOrZero buf (o + 2)
    + 2 ^ 24 * byteOrZero buf (o + 3)) / 2 ^ shift) % 2 ^ 11

/-- The state after one iteration of R59, in numbers. -/
def afterIteration (s : State) : State :=
  let v := fieldValue s.buf s.byteOffset.toNat s.bitShift.toNat
  let bitCount := s.bitCount.toNat + 11
  { s with
    seed := s.seed.setIfInBounds s.k.toNat (some (BitVec.ofNat 11 v))
    zf := if v = 0 then true else s.zf
    k := BitVec.ofNat 5 (s.k.toNat + 1)
    bitCount := BitVec.ofNat 9 bitCount
    byteOffset := BitVec.ofNat 6 (bitCount / 8)
    bitShift := BitVec.ofNat 3 (bitCount - bitCount / 8 * 8) }

/-- The bits that must be 0 for an opcode below 0xB (R48; the `RSV_NONZERO` column of R75). -/
def mustBeZero (op : Nat) : Word :=
  if op = 1 ∨ op = 2 then 0x0FC0FF00#32
  else if op = 6 ∨ op = 7 ∨ op = 8 then 0x0FC0FFFF#32
  else 0x0FFFFFFF#32

/-- `OP` as a number (R45). -/
def opOf (w : Word) : Nat := (w >>> 28).toNat

/-- The elements of the space a command indexes; `none` for a command without an index (R31, R75). -/
def spaceSize (op : Nat) : Option Nat :=
  if op = 1 ∨ op = 8 then some 32
  else if op = 2 ∨ op = 7 then some 33
  else if op = 6 then some 24
  else none

/-- The code a word raises in a state, by the cause table of R75 in the order of R78; `none` where it raises nothing. -/
def errorOf (w : Word) (s : State) : Option (BitVec 3) :=
  let op := opOf w
  let idx := ((w >>> 16) &&& 0x3F#32).toNat
  if 0xB ≤ op then some 1#3
  else if w &&& mustBeZero op ≠ 0#32 then some 2#3
  else if (spaceSize op).any (· ≤ idx) then some 3#3
  else if (op = 4 ∨ op = 5) ∧ s.k.toNat = 24 then some 4#3
  else if op = 6 ∧ s.k.toNat ≤ idx then some 5#3
  else none

/-- The cursor registers at 0, where a cursor reset puts them (R18, R58). -/
def atCursorStart (s : State) : Prop := s.k = 0#5 ∧ s.bitCount = 0#9 ∧ s.byteOffset = 0#6 ∧ s.bitShift = 0#3

/-- The tuples of R62, by `k`: `BIT_COUNT`, `BYTE_OFFSET`, `BIT_SHIFT`. -/
def cursorTable : List (Nat × Nat × Nat) :=
  [(0, 0, 0), (11, 1, 3), (22, 2, 6), (33, 4, 1), (44, 5, 4), (55, 6, 7), (66, 8, 2), (77, 9, 5), (88, 11, 0), (99, 12, 3)]
    ++ [(110, 13, 6), (121, 15, 1), (132, 16, 4), (143, 17, 7), (154, 19, 2), (165, 20, 5), (176, 22, 0), (187, 23, 3)]
    ++ [(198, 24, 6), (209, 26, 1), (220, 27, 4), (231, 28, 7), (242, 30, 2), (253, 31, 5), (264, 33, 0)]

/-- The cursor registers of a state, in the order of the table of R62. -/
def cursorOf (s : State) : Nat × Nat × Nat := (s.bitCount.toNat, s.byteOffset.toNat, s.bitShift.toNat)

/-- The commands that write `DIG` (R28). -/
def writesDig : Instr → Bool
  | .nop => false
  | .wdig _ _ => true
  | .wbuf _ _ => false
  | .asm => false
  | .step => false
  | .run => false
  | .rseed _ => false
  | .rbuf _ => false
  | .rdig _ => false
  | .rstat => false
  | .clr => true

/-- The commands that write `BUF` (R28). -/
def writesBuf : Instr → Bool
  | .nop => false
  | .wdig _ _ => false
  | .wbuf _ _ => true
  | .asm => true
  | .step => false
  | .run => false
  | .rseed _ => false
  | .rbuf _ => false
  | .rdig _ => false
  | .rstat => false
  | .clr => true

/-- The commands that write `SEED` (R28), and `CLR`, after which its contents are unspecified (R72). -/
def writesSeed : Instr → Bool
  | .nop => false
  | .wdig _ _ => false
  | .wbuf _ _ => false
  | .asm => false
  | .step => true
  | .run => true
  | .rseed _ => false
  | .rbuf _ => false
  | .rdig _ => false
  | .rstat => false
  | .clr => true

/-- The commands that write `K`, the cursors and `ZF` (R28). -/
def writesCursor : Instr → Bool
  | .nop => false
  | .wdig _ _ => false
  | .wbuf _ _ => true
  | .asm => true
  | .step => true
  | .run => true
  | .rseed _ => false
  | .rbuf _ => false
  | .rdig _ => false
  | .rstat => false
  | .clr => true

/-- The commands that write `DOUT` (R21, R28). -/
def writesDout : Instr → Bool
  | .nop => false
  | .wdig _ _ => false
  | .wbuf _ _ => false
  | .asm => false
  | .step => false
  | .run => false
  | .rseed _ => true
  | .rbuf _ => true
  | .rdig _ => true
  | .rstat => true
  | .clr => true

/-- The readback commands (R21). -/
def isRead : Instr → Bool
  | .nop => false
  | .wdig _ _ => false
  | .wbuf _ _ => false
  | .asm => false
  | .step => false
  | .run => false
  | .rseed _ => true
  | .rbuf _ => true
  | .rdig _ => true
  | .rstat => true
  | .clr => false

/-- The load and assembly commands, which R41 calls idempotent. -/
def isLoad : Instr → Bool
  | .nop => false
  | .wdig _ _ => true
  | .wbuf _ _ => true
  | .asm => true
  | .step => false
  | .run => false
  | .rseed _ => false
  | .rbuf _ => false
  | .rdig _ => false
  | .rstat => false
  | .clr => false

/-- `n` commands `STEP` in a row, stopping at the first that does not answer a next state. -/
def repeatStep : Nat → State → Result
  | 0, s => .next s
  | n + 1, s =>
    match exec .step s with
    | .next t => repeatStep n t
    | .fault r => .fault r
    | .refused r => .refused r

/-- `n` steps of the machine, stopping at the first that does not answer a next state. -/
def repeatMachineStep : Nat → State → Result
  | 0, s => .next s
  | n + 1, s =>
    match step s with
    | .next t => repeatMachineStep n t
    | .fault r => .fault r
    | .refused r => .refused r

end Sys2Proof.Claims

open Sys2Proof Sys2Proof.Machine Sys2Proof.Claims

-- Encoding

/-- R49, R51, R53: decoding the word of a command whose operands fit gives the command back, every operand at every value. -/
def Obligations.EncodedCommandDecodesToItself : Prop :=
  ∀ i : Instr, i.wf = true → decode (encode i) = .ok i

/-- R48, R49 and D21: no two words are one command. A word that decodes is the encoding of the command it decodes to. -/
def Obligations.DecodedWordIsItsEncoding : Prop :=
  ∀ (w : Word) (i : Instr), decode w = .ok i → i.wf = true ∧ encode i = w

/-- R50: an opcode 0xB..0xF raises `ILLEGAL_OP` whatever its other bits hold, and every word decodes to exactly one command or
raises exactly one error, whose code it latches (R74: 1 for `ILLEGAL_OP`, 2 for `RSV_NONZERO`). -/
def Obligations.ReservedOpcodesRaiseIllegalOp : Prop :=
  (∀ (w : Word) (s : State), 0xB ≤ opOf w → issue w s = .next (afterError 1#3 s))
    ∧ ∀ w : Word, (∃ i, decode w = .ok i ∧ ∀ s, issue w s = exec i s)
        ∨ (decode w = .error .illegalOp ∧ ∀ s, issue w s = .next (afterError 1#3 s))
        ∨ (decode w = .error .rsvNonzero ∧ ∀ s, issue w s = .next (afterError 2#3 s))

/-- R48: a nonzero reserved bit, or a nonzero bit in an operand field the command does not use, raises `RSV_NONZERO` and has no
other effect. -/
def Obligations.NonzeroReservedBitsSuppressCommand : Prop :=
  ∀ (w : Word) (s : State), opOf w < 0xB → w &&& mustBeZero (opOf w) ≠ 0#32 → issue w s = .next (afterError 2#3 s)

/-- Words written out from the encodings and examples of R55 to R72 decode to the commands they stand for. -/
def Obligations.SpecWordsDecode : Prop :=
  decode 0x00000000#32 = .ok .nop
    ∧ decode 0x100500AB#32 = .ok (.wdig 5#8 0xAB#8)
    ∧ decode 0x20200080#32 = .ok (.wbuf 32#8 0x80#8)
    ∧ decode 0x30000000#32 = .ok .asm
    ∧ decode 0x40000000#32 = .ok .step
    ∧ decode 0x60160000#32 = .ok (.rseed 22#8)
    ∧ decode 0xA0000000#32 = .ok .clr

-- The step

/-- R40, R51: a step takes the oldest pending word; if it decodes, the step is the command's meaning, with only the word taken
from the pending inputs, and if not, the step latches the decode error (codes 1 and 2 of R74) and nothing else. -/
def Obligations.StepRunsDecodedCommand : Prop :=
  ∀ (s : State) (w : Word) (rest : List HostInput), s.inputs = .command w :: rest →
    (∀ i, decode w = .ok i → step s = exec i { s with inputs := rest })
      ∧ (decode w = .error .illegalOp → step s = .next (afterError 1#3 { s with inputs := rest }))
      ∧ (decode w = .error .rsvNonzero → step s = .next (afterError 2#3 { s with inputs := rest }))

/-- R87: an assertion of `RST` gives the reset state, the state `CLR` gives. The model's choice, not the spec's: `RST` comes as one of
the host's inputs (log entry 11), and the later inputs stay pending over `RST` and `CLR` (log entry 1). -/
def Obligations.ResetInputGivesResetState : Prop :=
  ∀ (s : State) (rest : List HostInput), s.inputs = .rst :: rest →
    step s = .next { State.reset with inputs := rest }
      ∧ exec .clr { s with inputs := rest } = .next { State.reset with inputs := rest }

/-- R82 "Nothing in the FX happens except in response to a host command or the reset input": with no input pending a step
changes nothing (that such a step exists at all is the model's choice, log entry 6). -/
def Obligations.NothingHappensWithoutInput : Prop :=
  ∀ s : State, s.inputs = [] → step s = .next s

/-- The model's place for the next command (log entry 7): the step after `withFetchWord` runs the command the word decodes to.
-/
def Obligations.PlacedWordRunsNext : Prop :=
  ∀ (s : State) (w : Word) (i : Instr), decodeTableWord 32 w.toNat = some i →
    step (s.withFetchWord 32 w.toNat) = exec i s

/-- R40: inputs take effect in issue order, so a later one changes nothing about the step that takes an earlier one. -/
def Obligations.LaterInputsDoNotReachEarlierStep : Prop :=
  ∀ (s t : State) (later : List HostInput), s.inputs ≠ [] → step s = .next t →
    step { s with inputs := s.inputs ++ later } = .next { t with inputs := t.inputs ++ later }

/-- A claim about the model's own queue of pending inputs, which is its choice (log entry 1), against the run of R96 in the issue order
of R40: a run of command words is as many steps of the machine with those words pending. -/
def Obligations.RunIsStepsOverPendingCommands : Prop :=
  ∀ (words : List Word) (s t : State) (douts : List Word), s.inputs = [] → runCommands words s = .next (douts, t) →
    repeatMachineStep words.length { s with inputs := words.map .command } = .next t

-- Reset

/-- R27 and R88: the reset state, element by element, `STATUS` in it, and that `CLR` gives the same state. That `CLR` keeps the host's
pending inputs is the model's choice (log entry 1). -/
def Obligations.ResetLeavesSpecValues : Prop :=
  (∀ i : Fin 32, State.reset.dig[i] = 0x00#8)
    ∧ (∀ i : Fin 33, State.reset.buf[i] = 0x00#8)
    ∧ (∀ i : Fin 24, State.reset.seedAt i = none)
    ∧ State.reset.k = 0#5 ∧ State.reset.bitCount = 0#9 ∧ State.reset.byteOffset = 0#6 ∧ State.reset.bitShift = 0#3
    ∧ State.reset.zf = false ∧ State.reset.err = 0#3 ∧ State.reset.dout = 0x00000000#32
    ∧ State.reset.status = 0x00000000#32
    ∧ ∀ s : State, exec .clr s = .next { State.reset with inputs := s.inputs }

/-- 70_reset_and_hazards.md section 1 (R89), derived there from R88 and R59: `RUN` straight after reset, with or without `ASM`
before it, gives 24 zeros and sets `ZF`. -/
def Obligations.RunAfterResetGivesZeros : Prop :=
  ∃ a t u, exec .asm State.reset = .next a ∧ exec .run State.reset = .next t ∧ exec .run a = .next u
    ∧ (∀ i : Fin 24, t.seed[i] = some 0#11 ∧ u.seed[i] = some 0#11) ∧ t.zf = true ∧ u.zf = true

-- The commands

/-- R71: `NOP` changes nothing; every other word with its opcode raises `RSV_NONZERO`. -/
def Obligations.NopChangesNothing : Prop :=
  encodedAs 0x00000000#32 0xFFFFFFFF#32 (fun _ _ => .nop) ∧ ∀ s : State, exec .nop s = .next s

/-- R55: `WDIG`, its encoding, its effect at an index below 32 and its error at any other. -/
def Obligations.WdigWritesOneDigestByte : Prop :=
  encodedAs 0x10000000#32 0xFFC0FF00#32 (fun idx data => .wdig idx data)
    ∧ (∀ (idx data : Byte) (s : State) (h : idx.toNat < 32),
        exec (.wdig idx data) s = .next { s with dig := s.dig.set idx.toNat data h })
    ∧ ∀ (idx data : Byte) (s : State), 32 ≤ idx.toNat → exec (.wdig idx data) s = .next (afterError 3#3 s)

/-- R56, R58: `WBUF`, its encoding, its effect with the cursor reset at an index below 33 and its error at any other. -/
def Obligations.WbufWritesByteAndResetsCursor : Prop :=
  encodedAs 0x20000000#32 0xFFC0FF00#32 (fun idx data => .wbuf idx data)
    ∧ (∀ (idx data : Byte) (s : State) (h : idx.toNat < 33),
        exec (.wbuf idx data) s = .next { s with
          buf := s.buf.set idx.toNat data h, k := 0#5, bitCount := 0#9, byteOffset := 0#6, bitShift := 0#3, zf := false })
    ∧ ∀ (idx data : Byte) (s : State), 33 ≤ idx.toNat → exec (.wbuf idx data) s = .next (afterError 3#3 s)

/-- R57, R58: `ASM` writes the digest reversed and a copy of digest byte 31, and resets the cursor. -/
def Obligations.AsmReversesDigestAndCopiesLastByte : Prop :=
  encodedAs 0x30000000#32 0xFFFFFFFF#32 (fun _ _ => .asm)
    ∧ ∀ s : State, ∃ b : Vector Byte 33,
        exec .asm s = .next { s with
          buf := b, k := 0#5, bitCount := 0#9, byteOffset := 0#6, bitShift := 0#3, zf := false }
        ∧ (∀ i : Fin 32, b[i.val] = s.dig[31 - i.val]) ∧ b[32] = s.dig[31]

/-- R59, R60: in a state of the cursor invariant `STEP` runs one iteration when `K < 24`, and raises `SEQUENCE` when `K = 24`. -/
def Obligations.StepCommandRunsOneIteration : Prop :=
  encodedAs 0x40000000#32 0xFFFFFFFF#32 (fun _ _ => .step)
    ∧ (∀ s : State, s.CursorInv → s.k.toNat < 24 → exec .step s = .next (afterIteration s))
    ∧ ∀ s : State, s.k.toNat = 24 → exec .step s = .next (afterError 4#3 s)

/-- R61: `RUN` runs the `24 - K` remaining iterations as one step and ends with `K = 24`; at `K = 24` it raises `SEQUENCE`. Outside
the cursor invariant the iteration's arithmetic is the model's choice (log entry 13). -/
def Obligations.RunCommandRunsRemainingIterations : Prop :=
  encodedAs 0x50000000#32 0xFFFFFFFF#32 (fun _ _ => .run)
    ∧ (∀ s : State, s.k.toNat < 24 → exec .run s = .next (Nat.iterate afterIteration (24 - s.k.toNat) s)
        ∧ (Nat.iterate afterIteration (24 - s.k.toNat) s).k = 24#5)
    ∧ ∀ s : State, s.k.toNat = 24 → exec .run s = .next (afterError 4#3 s)

/-- R67: `RSEED` of a valid seed reads it, zero-extended; of an index below 24 not yet produced it raises `NOT_READY`; of any
other index `INDEX_RANGE`. -/
def Obligations.RseedReadsValidSeed : Prop :=
  encodedAs 0x60000000#32 0xFFC0FFFF#32 (fun idx _ => .rseed idx)
    ∧ (∀ (idx : Byte) (s : State) (v : SeedVal) (h : idx.toNat < 24), idx.toNat < s.k.toNat →
        s.seed[idx.toNat] = some v → exec (.rseed idx) s = .next { s with dout := v.setWidth 32 })
    ∧ (∀ (idx : Byte) (s : State), idx.toNat < 24 → s.k.toNat ≤ idx.toNat →
        exec (.rseed idx) s = .next (afterError 5#3 s))
    ∧ ∀ (idx : Byte) (s : State), 24 ≤ idx.toNat → exec (.rseed idx) s = .next (afterError 3#3 s)

/-- R68: `RBUF` reads a buffer byte, zero-extended, at any `K`; an index of 33 or more raises `INDEX_RANGE`. -/
def Obligations.RbufReadsBufferByte : Prop :=
  encodedAs 0x70000000#32 0xFFC0FFFF#32 (fun idx _ => .rbuf idx)
    ∧ (∀ (idx : Byte) (s : State) (h : idx.toNat < 33),
        exec (.rbuf idx) s = .next { s with dout := s.buf[idx.toNat].setWidth 32 })
    ∧ ∀ (idx : Byte) (s : State), 33 ≤ idx.toNat → exec (.rbuf idx) s = .next (afterError 3#3 s)

/-- R69: `RDIG` reads a digest byte, zero-extended; an index of 32 or more raises `INDEX_RANGE`. -/
def Obligations.RdigReadsDigestByte : Prop :=
  encodedAs 0x80000000#32 0xFFC0FFFF#32 (fun idx _ => .rdig idx)
    ∧ (∀ (idx : Byte) (s : State) (h : idx.toNat < 32),
        exec (.rdig idx) s = .next { s with dout := s.dig[idx.toNat].setWidth 32 })
    ∧ ∀ (idx : Byte) (s : State), 32 ≤ idx.toNat → exec (.rdig idx) s = .next (afterError 3#3 s)

/-- R70 (with R22 and R26): `RSTAT` writes the status word, field by field with its reserved bits, and changes nothing else. -/
def Obligations.RstatReadsStatusFields : Prop :=
  encodedAs 0x90000000#32 0xFFFFFFFF#32 (fun _ _ => .rstat)
    ∧ ∀ s : State, ∃ v : Word, exec .rstat s = .next { s with dout := v }
        ∧ v.extractLsb' 0 5 = s.k
        ∧ (v.getLsbD 5 = true ↔ s.k.toNat = 24)
        ∧ v.getLsbD 6 = s.zf
        ∧ v.getLsbD 7 = false
        ∧ v.extractLsb' 8 3 = s.err
        ∧ v.getLsbD 11 = false
        ∧ v.extractLsb' 12 3 = s.bitShift
        ∧ v.getLsbD 15 = false
        ∧ v.extractLsb' 16 6 = s.byteOffset
        ∧ v.getLsbD 22 = false
        ∧ v.extractLsb' 23 9 = s.bitCount

/-- R72: `CLR` gives the reset state and clears `ERR`, and no seed is valid after it; a `CLR` with a reserved bit set clears
nothing. The pending inputs are the model's own (log entry 1). -/
def Obligations.ClrReturnsToResetState : Prop :=
  encodedAs 0xA0000000#32 0xFFFFFFFF#32 (fun _ _ => .clr)
    ∧ ∀ s : State, ∃ seed : Vector (Option SeedVal) 24, ∃ t, exec .clr s = .next t
        ∧ t = { s with
          dig := Vector.replicate 32 0x00#8, buf := Vector.replicate 33 0x00#8, seed := seed
          k := 0#5, bitCount := 0#9, byteOffset := 0#6, bitShift := 0#3, zf := false, err := 0#3, dout := 0x00000000#32 }
        ∧ ∀ i : Fin 24, t.seedAt i = none

-- Frames and errors

/-- R23, R28, R29 (the pending inputs are the model's own, log entry 1): which elements each command may write, and which part
of each, on success and on error alike. -/
def Obligations.CommandsWriteOnlyTheirElements : Prop :=
  ∀ (i : Instr) (s t : State), exec i s = .next t →
    t.inputs = s.inputs
      ∧ (writesDig i = false → t.dig = s.dig)
      ∧ (writesBuf i = false → t.buf = s.buf)
      ∧ (writesSeed i = false → t.seed = s.seed)
      ∧ (writesCursor i = false → t.k = s.k ∧ t.bitCount = s.bitCount ∧ t.byteOffset = s.byteOffset
          ∧ t.bitShift = s.bitShift ∧ t.zf = s.zf)
      ∧ (writesDout i = false → t.dout = s.dout)
      ∧ (t.err = s.err ∨ s.err = 0#3 ∨ i = .clr)
      ∧ (∀ idx data, i = .wdig idx data → ∀ j : Fin 32, j.val ≠ idx.toNat → t.dig[j] = s.dig[j])
      ∧ (∀ idx data, i = .wbuf idx data → ∀ j : Fin 33, j.val ≠ idx.toNat → t.buf[j] = s.buf[j])
      ∧ (i = .step → ∀ j : Fin 24, j.val ≠ s.k.toNat → t.seed[j] = s.seed[j])
      ∧ (i = .run → ∀ j : Fin 24, j.val < s.k.toNat → t.seed[j] = s.seed[j])

/-- R75, R76, R77, R78: which words raise which error in which state and which error comes first; a word that raises one only
latches its code, and any other answers a next state without raising (`ERR` as before, or cleared by `CLR`). -/
def Obligations.ErrorsFollowCauseTable : Prop :=
  ∀ (w : Word) (s : State), s.Inv →
    (∀ code, errorOf w s = some code → issue w s = .next (afterError code s))
      ∧ (errorOf w s = none → ∃ t, issue w s = .next t ∧ t.err = if opOf w = 0xA then 0#3 else s.err)

/-- R20, R76, R80, R81: a latched error stays until `CLR`, whatever word is issued; reset is the other way to clear it. -/
def Obligations.LatchedErrorStaysUntilClear : Prop :=
  (∀ (w : Word) (s t : State), s.err ≠ 0#3 → issue w s = .next t →
      t.err = s.err ∨ (w = 0xA0000000#32 ∧ t.err = 0#3))
    ∧ ∀ (s t : State), accept .rst s = .next t → t.err = 0#3

/-- R79: a latched error stops nothing. A word issued with an error latched has the effect it has with none, except that `ERR`
is not overwritten (only `CLR` clears it). `RSTAT` reads `ERR` and is left to `RstatReadsStatusFields`. -/
def Obligations.LatchedErrorChangesNoOtherEffect : Prop :=
  ∀ (w : Word) (s t : State) (code : BitVec 3), code ≠ 0#3 → w ≠ 0x90000000#32 →
    issue w { s with err := 0#3 } = .next t →
      issue w { s with err := code } = .next { t with err := if w = 0xA0000000#32 then 0#3 else code }

/-- R19: only `ASM`, `WBUF` and `CLR` clear `ZF`, and only an iteration that stores 0 sets it: one of those this command ran, which
are the indices from the old `K` to below the new one. -/
def Obligations.ZeroFlagIsSticky : Prop :=
  ∀ (i : Instr) (s t : State), exec i s = .next t →
    (s.zf = true → t.zf = false → i = .asm ∨ i = .clr ∨ ∃ idx data, i = .wbuf idx data)
      ∧ (s.zf = false → t.zf = true →
          (i = .step ∨ i = .run)
            ∧ ∃ j : Fin 24, s.k.toNat ≤ j.val ∧ j.val < t.k.toNat ∧ t.seed[j] = some 0#11)

/-- 20_memory.md section 4, "Side effects and idempotency" (R41), partly derived there: a readback changes nothing but `DOUT`
and, if it fails, `ERR`, and repeated it gives the same `DOUT`; loads and `ASM` are idempotent; `STEP` and `RUN` are not, since
each advances `K`. -/
def Obligations.ReadsAndLoadsAreIdempotent : Prop :=
  (∀ (i : Instr) (s t : State), isRead i = true → exec i s = .next t →
      { t with dout := s.dout, err := s.err } = s ∧ exec i t = .next t)
    ∧ (∀ (i : Instr) (s t : State), isLoad i = true → exec i s = .next t → exec i t = .next t)
    ∧ ∀ (s t : State), s.k.toNat < 24 → (exec .step s = .next t ∨ exec .run s = .next t) → s.k.toNat < t.k.toNat

/-- R58, and 70_reset_and_hazards.md section 3, "Writing `BUF` discards the extraction" (R92), derived there from it and R13:
after `ASM`, or a `WBUF` in range, every seed is invalid: `RSEED` of it raises `NOT_READY`. -/
def Obligations.BufferWriteInvalidatesSeeds : Prop :=
  ∀ (s t : State) (idx : Byte), idx.toNat < 24 →
    (exec .asm s = .next t ∨ ∃ (j data : Byte), j.toNat < 33 ∧ exec (.wbuf j data) s = .next t) →
      exec (.rseed idx) t = .next (afterError 5#3 t)

-- Invariants

/-- 10_state.md section 3, "Cursor invariant. In every reachable state" (R18), whose last part the spec marks as its own
derivation from R59: the cursor invariant holds at reset and after every cursor reset, with all four values 0, and every step
keeps it. -/
def Obligations.CursorInvariantKept : Prop :=
  (State.reset.CursorInv ∧ atCursorStart State.reset)
    ∧ (∀ s t : State, (exec .asm s = .next t ∨ exec .clr s = .next t
          ∨ ∃ (idx data : Byte), idx.toNat < 33 ∧ exec (.wbuf idx data) s = .next t) → t.CursorInv ∧ atCursorStart t)
    ∧ ∀ s t : State, s.CursorInv → step s = .next t → t.CursorInv

/-- R20, R74: `ERR` holds 0 or one of the codes 1 to 5 after every step from a state where it does. -/
def Obligations.ErrorLatchHoldsLegalCode : Prop :=
  ∀ s t : State, s.ErrInv → step s = .next t → t.ErrInv

/-- The invariants hold at reset. -/
def Obligations.InvariantHoldsAtReset : Prop := State.reset.Inv

/-- R13, R19, R74, D8, and what the spec derives in 10_state.md section 3 and 42_extract.md section 3: every step keeps the
invariants: cursor, error latch, every valid seed a field of the present buffer, `ZF` set exactly when a valid seed is 0. -/
def Obligations.EveryStepKeepsInvariant : Prop :=
  ∀ s t : State, s.Inv → step s = .next t → t.Inv

/-- R50, R79 (the two faults are the model's, log entries 3 and 4): from a state that meets the invariants every step answers a
next state, whatever the host does: the block never stops, and the model's two faults are not reached. -/
def Obligations.NoStepStopsTheMachine : Prop :=
  ∀ s : State, s.Inv → ∃ t, step s = .next t

/-- 42_extract.md section 3, "All 25 reachable tuples" (R62), which the spec derives from R59: the cursor is the table's row for `K`,
and with `K < 24` `STEP` moves it to the next row and stores the field of the word that R34 reads at this row's offset, shifted by
this row's shift. That word's last index is 33 or more exactly at `K = 22` and `K = 23`, and 34 exactly at `K = 23`. -/
def Obligations.CursorFollowsTable : Prop :=
  ∀ s : State, s.CursorInv →
    cursorTable[s.k.toNat]? = some (cursorOf s)
      ∧ ∀ row, s.k.toNat < 24 → cursorTable[s.k.toNat]? = some row →
          (∃ t, exec .step s = .next t
            ∧ t.k.toNat = s.k.toNat + 1
            ∧ cursorTable[s.k.toNat + 1]? = some (cursorOf t)
            ∧ t.seed[s.k.toNat]? = some (some ((leWord s.buf row.2.1 >>> row.2.2).extractLsb' 0 11)))
          ∧ (33 ≤ row.2.1 + 3 ↔ s.k.toNat = 22 ∨ s.k.toNat = 23)
          ∧ (34 ≤ row.2.1 + 3 ↔ s.k.toNat = 23)

-- The extraction

/-- 42_extract.md section 3, "Guard reach and unused bytes" (R65), which the spec derives from R59: iterations 22 and 23 alone
read past the buffer, at indices 33 and 34 at most; the fourth byte of the assembled word never reaches the field; and "the
guard changes no result": any word whose in-range bytes are the buffer's gives the same field. -/
def Obligations.GuardReachesNoField : Prop :=
  (∀ s : State, s.CursorInv → s.k.toNat < 24 →
      s.byteOffset.toNat + 3 ≤ 34
        ∧ (33 ≤ s.byteOffset.toNat + 3 ↔ s.k.toNat = 22 ∨ s.k.toNat = 23)
        ∧ (34 ≤ s.byteOffset.toNat + 3 ↔ s.k.toNat = 23))
    ∧ (∀ (buf buf' : Vector Byte 33) (o : BitVec 6) (shift : BitVec 3),
        (∀ j : Fin 3, guardedRead buf (o.toNat + j.val) = guardedRead buf' (o.toNat + j.val)) →
          fieldAt buf o shift = fieldAt buf' o shift)
    ∧ ∀ (s : State) (w : Word), s.CursorInv → s.k.toNat < 24 →
        (∀ (j : Fin 4) (h : s.byteOffset.toNat + j.val < 33), w.extractLsb' (8 * j.val) 8 = s.buf[s.byteOffset.toNat + j.val]) →
          fieldAt s.buf s.byteOffset s.bitShift = (w >>> s.bitShift.toNat).extractLsb' 0 11

/-- R35: the stream value is the sum of the bytes at their weights, and stream bit `8i + j` is bit `j` of byte `i`. -/
def Obligations.StreamBitsAreBufferBits : Prop :=
  ∀ buf : Vector Byte 33,
    (bitstream buf).toNat = ∑ i : Fin 33, buf[i].toNat * 2 ^ (8 * i.val)
      ∧ ∀ (i : Fin 33) (j : Fin 8), (bitstream buf).getLsbD (8 * i.val + j.val) = buf[i].getLsbD j.val

/-- 42_extract.md section 3, "Closed form" (R64), which the spec derives from R59, R33, R34 and R35: iteration `k` stores bits
`11k + 10` down to `11k` of the bitstream. -/
def Obligations.IterationStoresStreamField : Prop :=
  ∀ s : State, s.CursorInv → s.k.toNat < 24 →
    ∃ (t : State) (v : SeedVal), exec .step s = .next t ∧ t.seed[s.k.toNat]? = some (some v)
      ∧ v = (bitstream s.buf).extractLsb' (11 * s.k.toNat) 11
      ∧ v.toNat = (bitstream s.buf).toNat / 2 ^ (11 * s.k.toNat) % 2 ^ 11

/-- R61 with the closed form that 42_extract.md section 3 derives: from a state that meets the invariants with `K < 24`, `RUN`
gives all 24 fields of the buffer, whether the extraction starts or goes on, with the cursor at its end and `ZF` set exactly
when a field is 0; nothing else changes. -/
def Obligations.RunCompletesExtraction : Prop :=
  ∀ s : State, s.Inv → s.k.toNat < 24 →
    ∃ (fields : Vector (Option SeedVal) 24) (zf : Bool),
      exec .run s = .next { s with
        seed := fields, zf := zf, k := 24#5, bitCount := 264#9, byteOffset := 33#6, bitShift := 0#3 }
      ∧ (∀ j : Fin 24, fields[j] = some ((bitstream s.buf).extractLsb' (11 * j.val) 11))
      ∧ (zf = true ↔ ∃ j : Fin 24, (bitstream s.buf).extractLsb' (11 * j.val) 11 = 0#11)

/-- R61, V13: `RUN` is `24 - K` commands `STEP`, outside the cursor invariant too (log entry 13). -/
def Obligations.RunEqualsRepeatedStep : Prop :=
  ∀ s : State, s.k.toNat < 24 → exec .run s = repeatStep (24 - s.k.toNat) s

/-- 42_extract.md section 3, "Composition with assembly" (R66), which the spec derives from R57 and the closed form: `ASM` and
then `RUN` give the closed form over the digest, with the first and the last field written out. -/
def Obligations.AssemblyThenRunGivesDigestFields : Prop :=
  ∀ s : State, ∃ t u : State, exec .asm s = .next t ∧ exec .run t = .next u
    ∧ (bitstream u.buf).toNat
        = (∑ i : Fin 32, s.dig[31 - i.val].toNat * 2 ^ (8 * i.val)) + s.dig[31].toNat * 2 ^ 256
    ∧ (∀ j : Fin 24, u.seed[j] = some ((bitstream u.buf).extractLsb' (11 * j.val) 11))
    ∧ u.seed[23] = some (s.dig[31] ++ s.dig[0].extractLsb' 5 3)
    ∧ u.seed[0] = some (s.dig[30].extractLsb' 0 3 ++ s.dig[31])

/-- 60_exceptions.md section 4 (R86: "`ZF = 1` with `DONE = 1` means at least one of the 24 valid values is 0"), which the spec
derives: in a state that meets the invariants with `DONE = 1`, `ZF = 0` says every value is in 1..2047 and `ZF = 1` that a valid
value is 0. With no error either, `STATUS` is 0x84210038 (10_state.md section 7, derived there). -/
def Obligations.ZeroFlagTellsConsumer : Prop :=
  ∀ s : State, s.Inv → s.done = true →
    (s.zf = false → ∀ j : Fin 24, ∃ v, s.seedAt j = some v ∧ 1 ≤ v.toNat ∧ v.toNat ≤ 2047)
      ∧ (s.zf = true → ∃ j : Fin 24, s.seedAt j = some 0#11)
      ∧ (s.zf = false → s.err = 0#3 → s.status = 0x84210038#32)

/-- 42_extract.md section 3, "Both ends are reachable" (R63): both ends of the value range are reached: a buffer of bytes 0xFF
gives 2047 in every field and one of bytes 0x00 gives 0. -/
def Obligations.ValueRangeEndsAreReached : Prop :=
  ∀ s : State, atCursorStart s →
    (s.buf = Vector.replicate 33 0xFF#8 → ∃ t, exec .run s = .next t ∧ ∀ j : Fin 24, t.seed[j] = some 2047#11)
      ∧ (s.buf = Vector.replicate 33 0x00#8 → ∃ t, exec .run s = .next t ∧ ∀ j : Fin 24, t.seed[j] = some 0#11)

-- Determinism

/-- 70_reset_and_hazards.md section 5, "Determinism" (R97), derived there from the command rules: the contents of invalid seed
elements reach nothing. From two states that differ only there, a word has the same effect but for invalid elements. -/
def Obligations.InvalidSeedsReachNothing : Prop :=
  ∀ (w : Word) (s s' t : State), s.AgreeOnValid s' → issue w s = .next t →
    ∃ t', issue w s' = .next t' ∧ t.AgreeOnValid t'

/-- R13 and R96, and 70_reset_and_hazards.md section 5 ("They are never observable"), derived there: invalid seed elements are
never observed. After which words the host reads `DOUT` is log entry 8. From two states that differ only there, every run of any
length has the same observation, and final states that differ only there. -/
def Obligations.InvalidSeedsAreNeverObserved : Prop :=
  ∀ (words : List Word) (s s' t : State) (douts : List Word), s.AgreeOnValid s' →
    runCommands words s = .next (douts, t) →
      ∃ t', runCommands words s' = .next (douts, t') ∧ t.AgreeOnValid t'

-- The assembler

/-- R54: the pseudo-instructions and their expansions, command by command. -/
def Obligations.PseudoInstructionsExpand : Prop :=
  (∀ (b : Vector Byte 32), (expand (.ldig b)).length = 32
      ∧ ∀ i : Fin 32, (expand (.ldig b))[i.val]? = some (.wdig (BitVec.ofNat 8 i.val) b[i]))
    ∧ (∀ (b : Vector Byte 33), (expand (.lbuf b)).length = 33
      ∧ ∀ i : Fin 33, (expand (.lbuf b))[i.val]? = some (.wbuf (BitVec.ofNat 8 i.val) b[i]))
    ∧ (∀ (v : Byte), (expand (.fillbuf v)).length = 33
      ∧ ∀ i : Fin 33, (expand (.fillbuf v))[i.val]? = some (.wbuf (BitVec.ofNat 8 i.val) v))
    ∧ expand .extract = [.asm, .run]
    ∧ ((expand .rseeds).length = 24 ∧ ∀ i : Fin 24, (expand .rseeds)[i.val]? = some (.rseed (BitVec.ofNat 8 i.val)))

/-- R53: the assembler rejects an index outside 0..63 or a byte outside 0..255, and otherwise gives `OP << 28 | idx << 16 |
data`, for the lines `WDIG`, `WBUF` (opcodes 1, 2) and `RSEED`, `RBUF`, `RDIG` (6, 7, 8). -/
def Obligations.AssemblerPlacesOrRejectsOperands : Prop :=
  ∀ idx data : Nat,
    (lineIndexData .wdig [idx, data]
        = if idx ≤ 63 ∧ data ≤ 255 then some [BitVec.ofNat 32 (1 * 2 ^ 28 + idx * 2 ^ 16 + data)] else none)
      ∧ (lineIndexData .wbuf [idx, data]
        = if idx ≤ 63 ∧ data ≤ 255 then some [BitVec.ofNat 32 (2 * 2 ^ 28 + idx * 2 ^ 16 + data)] else none)
      ∧ (lineIndex .rseed [idx] = if idx ≤ 63 then some [BitVec.ofNat 32 (6 * 2 ^ 28 + idx * 2 ^ 16)] else none)
      ∧ (lineIndex .rbuf [idx] = if idx ≤ 63 then some [BitVec.ofNat 32 (7 * 2 ^ 28 + idx * 2 ^ 16)] else none)
      ∧ (lineIndex .rdig [idx] = if idx ≤ 63 then some [BitVec.ofNat 32 (8 * 2 ^ 28 + idx * 2 ^ 16)] else none)
end

