-- ==== Sys2Proof/Laws/State.lean ====
section
/-!
SUPPORT. What each update of the state does to each of its fields.
-/

namespace Sys2Proof.Machine

open Sys2Proof

variable (s : State)

@[simp] theorem State.latch_dig (c : ErrorCode) : (s.latch c).dig = s.dig := by
  unfold State.latch; split <;> rfl
@[simp] theorem State.latch_buf (c : ErrorCode) : (s.latch c).buf = s.buf := by
  unfold State.latch; split <;> rfl
@[simp] theorem State.latch_seed (c : ErrorCode) : (s.latch c).seed = s.seed := by
  unfold State.latch; split <;> rfl
@[simp] theorem State.latch_k (c : ErrorCode) : (s.latch c).k = s.k := by
  unfold State.latch; split <;> rfl
@[simp] theorem State.latch_bitCount (c : ErrorCode) : (s.latch c).bitCount = s.bitCount := by
  unfold State.latch; split <;> rfl
@[simp] theorem State.latch_byteOffset (c : ErrorCode) : (s.latch c).byteOffset = s.byteOffset := by
  unfold State.latch; split <;> rfl
@[simp] theorem State.latch_bitShift (c : ErrorCode) : (s.latch c).bitShift = s.bitShift := by
  unfold State.latch; split <;> rfl
@[simp] theorem State.latch_zf (c : ErrorCode) : (s.latch c).zf = s.zf := by
  unfold State.latch; split <;> rfl
@[simp] theorem State.latch_err (c : ErrorCode) :
    (s.latch c).err = if s.err = 0#3 then errorBits c else s.err := by
  unfold State.latch; split <;> rfl
@[simp] theorem State.latch_dout (c : ErrorCode) : (s.latch c).dout = s.dout := by
  unfold State.latch; split <;> rfl
@[simp] theorem State.latch_inputs (c : ErrorCode) : (s.latch c).inputs = s.inputs := by
  unfold State.latch; split <;> rfl

@[simp] theorem State.answer_dig {w : Nat} (v : BitVec w) : (s.answer v).dig = s.dig := rfl
@[simp] theorem State.answer_buf {w : Nat} (v : BitVec w) : (s.answer v).buf = s.buf := rfl
@[simp] theorem State.answer_seed {w : Nat} (v : BitVec w) : (s.answer v).seed = s.seed := rfl
@[simp] theorem State.answer_k {w : Nat} (v : BitVec w) : (s.answer v).k = s.k := rfl
@[simp] theorem State.answer_bitCount {w : Nat} (v : BitVec w) : (s.answer v).bitCount = s.bitCount := rfl
@[simp] theorem State.answer_byteOffset {w : Nat} (v : BitVec w) : (s.answer v).byteOffset = s.byteOffset := rfl
@[simp] theorem State.answer_bitShift {w : Nat} (v : BitVec w) : (s.answer v).bitShift = s.bitShift := rfl
@[simp] theorem State.answer_zf {w : Nat} (v : BitVec w) : (s.answer v).zf = s.zf := rfl
@[simp] theorem State.answer_err {w : Nat} (v : BitVec w) : (s.answer v).err = s.err := rfl
@[simp] theorem State.answer_dout {w : Nat} (v : BitVec w) : (s.answer v).dout = v.setWidth 32 := rfl
@[simp] theorem State.answer_inputs {w : Nat} (v : BitVec w) : (s.answer v).inputs = s.inputs := rfl

@[simp] theorem State.cursorReset_dig : s.cursorReset.dig = s.dig := rfl
@[simp] theorem State.cursorReset_buf : s.cursorReset.buf = s.buf := rfl
@[simp] theorem State.cursorReset_seed : s.cursorReset.seed = s.seed := rfl
@[simp] theorem State.cursorReset_k : s.cursorReset.k = 0#5 := rfl
@[simp] theorem State.cursorReset_bitCount : s.cursorReset.bitCount = 0#9 := rfl
@[simp] theorem State.cursorReset_byteOffset : s.cursorReset.byteOffset = 0#6 := rfl
@[simp] theorem State.cursorReset_bitShift : s.cursorReset.bitShift = 0#3 := rfl
@[simp] theorem State.cursorReset_zf : s.cursorReset.zf = false := rfl
@[simp] theorem State.cursorReset_err : s.cursorReset.err = s.err := rfl
@[simp] theorem State.cursorReset_dout : s.cursorReset.dout = s.dout := rfl
@[simp] theorem State.cursorReset_inputs : s.cursorReset.inputs = s.inputs := rfl

@[simp] theorem State.clear_dig : s.clear.dig = State.reset.dig := rfl
@[simp] theorem State.clear_buf : s.clear.buf = State.reset.buf := rfl
@[simp] theorem State.clear_seed : s.clear.seed = State.reset.seed := rfl
@[simp] theorem State.clear_k : s.clear.k = State.reset.k := rfl
@[simp] theorem State.clear_bitCount : s.clear.bitCount = State.reset.bitCount := rfl
@[simp] theorem State.clear_byteOffset : s.clear.byteOffset = State.reset.byteOffset := rfl
@[simp] theorem State.clear_bitShift : s.clear.bitShift = State.reset.bitShift := rfl
@[simp] theorem State.clear_zf : s.clear.zf = State.reset.zf := rfl
@[simp] theorem State.clear_err : s.clear.err = State.reset.err := rfl
@[simp] theorem State.clear_dout : s.clear.dout = State.reset.dout := rfl
@[simp] theorem State.clear_inputs : s.clear.inputs = s.inputs := rfl

@[simp] theorem State.reset_dig : State.reset.dig = Vector.replicate 32 0#8 := rfl
@[simp] theorem State.reset_buf : State.reset.buf = Vector.replicate 33 0#8 := rfl
@[simp] theorem State.reset_seed : State.reset.seed = Vector.replicate 24 none := rfl
@[simp] theorem State.reset_k : State.reset.k = 0#5 := rfl
@[simp] theorem State.reset_bitCount : State.reset.bitCount = 0#9 := rfl
@[simp] theorem State.reset_byteOffset : State.reset.byteOffset = 0#6 := rfl
@[simp] theorem State.reset_bitShift : State.reset.bitShift = 0#3 := rfl
@[simp] theorem State.reset_zf : State.reset.zf = false := rfl
@[simp] theorem State.reset_err : State.reset.err = 0#3 := rfl
@[simp] theorem State.reset_dout : State.reset.dout = 0#32 := rfl
@[simp] theorem State.reset_inputs : State.reset.inputs = [] := rfl

@[simp] theorem iter_dig : (iter s).dig = s.dig := rfl
@[simp] theorem iter_buf : (iter s).buf = s.buf := rfl
@[simp] theorem iter_seed :
    (iter s).seed = s.seed.setIfInBounds s.k.toNat (some (fieldAt s.buf s.byteOffset s.bitShift)) := rfl
@[simp] theorem iter_k : (iter s).k = s.k + 1#5 := rfl
@[simp] theorem iter_bitCount : (iter s).bitCount = s.bitCount + 11#9 := rfl
@[simp] theorem iter_byteOffset : (iter s).byteOffset = byteOffsetOf (s.bitCount + 11#9) := rfl
@[simp] theorem iter_bitShift :
    (iter s).bitShift = bitShiftOf (s.bitCount + 11#9) (byteOffsetOf (s.bitCount + 11#9)) := rfl
@[simp] theorem iter_zf :
    (iter s).zf = zfAfter s.zf (fieldAt s.buf s.byteOffset s.bitShift) := rfl
@[simp] theorem iter_err : (iter s).err = s.err := rfl
@[simp] theorem iter_dout : (iter s).dout = s.dout := rfl
@[simp] theorem iter_inputs : (iter s).inputs = s.inputs := rfl

@[simp] theorem State.withFetchWord_dig (nbits w : Nat) :
    (s.withFetchWord nbits w).dig = s.dig := rfl
@[simp] theorem State.withFetchWord_buf (nbits w : Nat) :
    (s.withFetchWord nbits w).buf = s.buf := rfl
@[simp] theorem State.withFetchWord_seed (nbits w : Nat) :
    (s.withFetchWord nbits w).seed = s.seed := rfl
@[simp] theorem State.withFetchWord_k (nbits w : Nat) :
    (s.withFetchWord nbits w).k = s.k := rfl
@[simp] theorem State.withFetchWord_bitCount (nbits w : Nat) :
    (s.withFetchWord nbits w).bitCount = s.bitCount := rfl
@[simp] theorem State.withFetchWord_byteOffset (nbits w : Nat) :
    (s.withFetchWord nbits w).byteOffset = s.byteOffset := rfl
@[simp] theorem State.withFetchWord_bitShift (nbits w : Nat) :
    (s.withFetchWord nbits w).bitShift = s.bitShift := rfl
@[simp] theorem State.withFetchWord_zf (nbits w : Nat) :
    (s.withFetchWord nbits w).zf = s.zf := rfl
@[simp] theorem State.withFetchWord_err (nbits w : Nat) :
    (s.withFetchWord nbits w).err = s.err := rfl
@[simp] theorem State.withFetchWord_dout (nbits w : Nat) :
    (s.withFetchWord nbits w).dout = s.dout := rfl
@[simp] theorem State.withFetchWord_inputs (nbits w : Nat) :
    (s.withFetchWord nbits w).inputs = .command (tableWord nbits w) :: s.inputs := rfl

end Sys2Proof.Machine
end

