-- ==== Sys2Proof/Laws/Ops.lean ====
section
/-!
SUPPORT. What each shared operation can do, said once, so that a proof cites it and does not unfold the operation.
-/

namespace Sys2Proof.Machine

open Sys2Proof

/-! The error latch -/

theorem errorBits_ne_zero (c : ErrorCode) : errorBits c ≠ 0#3 := by cases c <;> decide

theorem errorBits_le_five (c : ErrorCode) : (errorBits c).toNat ≤ 5 := by cases c <;> decide

/-- Raising an error always answers a next state, and it is the latched one. -/
theorem raise_eq (c : ErrorCode) (s : State) : raise c s = .next (s.latch c) := rfl

theorem State.latch_eq (s : State) (c : ErrorCode) :
    s.latch c = { s with err := if s.err = 0#3 then errorBits c else s.err } := by
  unfold State.latch; split <;> rfl

theorem State.latch_of_err_ne_zero {s : State} (h : s.err ≠ 0#3) (c : ErrorCode) : s.latch c = s := by
  simp [State.latch_eq, h]

theorem State.latch_err_ne_zero (s : State) (c : ErrorCode) : (s.latch c).err ≠ 0#3 := by
  rw [State.latch_err]; split
  · exact errorBits_ne_zero c
  · assumption

/-! Index operands -/

theorem withIndex_of_lt {size : Nat} {idx : Byte} {s : State} {run : Fin size → Result} (h : idx.toNat < size) :
    withIndex size idx s run = run ⟨idx.toNat, h⟩ := by simp [withIndex, h]

theorem withIndex_of_ge {size : Nat} {idx : Byte} {s : State} {run : Fin size → Result} (h : size ≤ idx.toNat) :
    withIndex size idx s run = .next (s.latch .indexRange) := by simp [withIndex, Nat.not_lt.mpr h, raise_eq]

/-- A command with an index ran on its element, or only latched `INDEX_RANGE`. -/
theorem withIndex_cases {size : Nat} {idx : Byte} {s t : State} {run : Fin size → Result}
    (h : withIndex size idx s run = .next t) :
    (∃ lt : idx.toNat < size, run ⟨idx.toNat, lt⟩ = .next t) ∨ (size ≤ idx.toNat ∧ t = s.latch .indexRange) := by
  rcases Nat.lt_or_ge idx.toNat size with lt | ge
  · exact .inl ⟨lt, by rwa [withIndex_of_lt lt] at h⟩
  · rw [withIndex_of_ge ge] at h
    exact .inr ⟨ge, by injection h with h; exact h.symm⟩

/-! Seeds -/

theorem State.seedAt_of_lt {s : State} {i : Fin 24} (h : i.val < s.k.toNat) : s.seedAt i = s.seed[i] := by
  simp [State.seedAt, h]

theorem State.seedAt_of_ge {s : State} {i : Fin 24} (h : s.k.toNat ≤ i.val) : s.seedAt i = none := by
  simp [State.seedAt, Nat.not_lt.mpr h]

/-- `RSEED` in range: the value, `NOT_READY`, or a stop where a produced element has no value. -/
theorem execRseed_of_lt {idx : Byte} {s : State} (h : idx.toNat < 24) :
    execRseed idx s = if s.k.toNat ≤ idx.toNat then .next (s.latch .notReady) else
      match s.seedAt ⟨idx.toNat, h⟩ with
      | some v => .next (s.answer v)
      | none => .fault .seedWithoutValue := by
  rw [execRseed, withIndex_of_lt h]; rfl

theorem execRseed_of_valid {idx : Byte} {s : State} {v : SeedVal} (h : idx.toNat < 24) (hk : idx.toNat < s.k.toNat)
    (hv : s.seed[idx.toNat] = some v) : execRseed idx s = .next (s.answer v) := by
  rw [execRseed_of_lt h, if_neg (Nat.not_le.mpr hk),
    State.seedAt_of_lt (show (⟨idx.toNat, h⟩ : Fin 24).val < s.k.toNat from hk)]
  simp only [Fin.getElem_fin, hv]

theorem execRseed_of_invalid {idx : Byte} {s : State} (h : idx.toNat < 24) (hk : s.k.toNat ≤ idx.toNat) :
    execRseed idx s = .next (s.latch .notReady) := by
  rw [execRseed_of_lt h, if_pos hk]

/-! The extraction -/

theorem k_lt_24_iff (k : BitVec 5) : k < 24#5 ↔ k.toNat < 24 := by simp [BitVec.lt_def]

theorem k_eq_24_iff (k : BitVec 5) : k = 24#5 ↔ k.toNat = 24 := by simp [← BitVec.toNat_inj]

theorem extraction_of_lt {f : State → State} {s : State} (h : s.k.toNat < 24) : extraction f s = .next (f s) := by
  have ne : ¬ s.k = 24#5 := by rw [k_eq_24_iff]; omega
  simp [extraction, ne, (k_lt_24_iff s.k).mpr h]

theorem extraction_of_eq {f : State → State} {s : State} (h : s.k.toNat = 24) :
    extraction f s = .next (s.latch .sequence) := by
  simp [extraction, (k_eq_24_iff s.k).mpr h, raise_eq]

theorem extraction_of_gt {f : State → State} {s : State} (h : 24 < s.k.toNat) :
    extraction f s = .fault .iterationUndefined := by
  have ne : ¬ s.k = 24#5 := by rw [k_eq_24_iff]; omega
  have nlt : ¬ s.k < 24#5 := by rw [k_lt_24_iff]; omega
  simp [extraction, ne, nlt]

/-- An extraction that answers a next state ran its iterations from `K < 24`, or latched `SEQUENCE` at `K = 24`. -/
theorem extraction_cases {f : State → State} {s t : State} (h : extraction f s = .next t) :
    (s.k.toNat < 24 ∧ t = f s) ∨ (s.k.toNat = 24 ∧ t = s.latch .sequence) := by
  rcases Nat.lt_trichotomy s.k.toNat 24 with lt | eq | gt
  · rw [extraction_of_lt lt] at h; injection h with h; exact .inl ⟨lt, h.symm⟩
  · rw [extraction_of_eq eq] at h; injection h with h; exact .inr ⟨eq, h.symm⟩
  · rw [extraction_of_gt gt] at h; cases h

/-- One iteration from `K < 24` produces one more seed. -/
theorem iter_k_toNat {s : State} (h : s.k.toNat < 24) : (iter s).k.toNat = s.k.toNat + 1 := by
  rw [iter_k, BitVec.toNat_add]; simp; omega

/-- The loop of `RUN`, with enough fuel, is the iteration applied `24 - K` times. -/
theorem iterWhile_eq_iterate (fuel : Nat) (s : State) (hk : s.k.toNat ≤ 24) (hf : 24 ≤ s.k.toNat + fuel) :
    iterWhile fuel s = iter^[24 - s.k.toNat] s := by
  induction fuel generalizing s with
  | zero => rw [show 24 - s.k.toNat = 0 by omega]; rfl
  | succ fuel ih =>
    rw [iterWhile]
    rcases Nat.lt_or_ge s.k.toNat 24 with lt | ge
    · have hk' := iter_k_toNat lt
      rw [if_pos ((k_lt_24_iff s.k).mpr lt), ih (iter s) (by omega) (by omega), hk',
        show 24 - s.k.toNat = (24 - (s.k.toNat + 1)) + 1 by omega, Function.iterate_succ_apply]
    · rw [if_neg (by rw [k_lt_24_iff]; omega), show 24 - s.k.toNat = 0 by omega]; rfl

/-- A property of states that each iteration from `K < 24` keeps is kept by the loop. -/
theorem iterWhile_induction {P : State → Prop} (hstep : ∀ s, s.k.toNat < 24 → P s → P (iter s)) (fuel : Nat) (s : State)
    (h : P s) : P (iterWhile fuel s) := by
  induction fuel generalizing s with
  | zero => exact h
  | succ fuel ih =>
    rw [iterWhile]; split
    · next lt => exact ih _ (hstep s ((k_lt_24_iff s.k).mp lt) h)
    · exact h

/-- After the loop with enough fuel, `K = 24`. -/
theorem iterWhile_k_toNat (fuel : Nat) (s : State) (hk : s.k.toNat ≤ 24) (hf : 24 ≤ s.k.toNat + fuel) :
    (iterWhile fuel s).k.toNat = 24 := by
  induction fuel generalizing s with
  | zero => show s.k.toNat = 24; omega
  | succ fuel ih =>
    rw [iterWhile]
    rcases Nat.lt_or_ge s.k.toNat 24 with lt | ge
    · have hk' := iter_k_toNat lt
      rw [if_pos ((k_lt_24_iff s.k).mpr lt)]; exact ih (iter s) (by omega) (by omega)
    · rw [if_neg (by rw [k_lt_24_iff]; omega)]; omega

/-! The cursor arithmetic, in numbers -/

theorem byteOffsetOf_toNat (b : BitVec 9) : (byteOffsetOf b).toNat = b.toNat / 8 := by
  have := b.isLt
  simp [byteOffsetOf, BitVec.toNat_udiv]; omega

theorem bitShiftOf_toNat (b : BitVec 9) : (bitShiftOf b (byteOffsetOf b)).toNat = b.toNat % 8 := by
  have := b.isLt
  simp [bitShiftOf, BitVec.toNat_sub, BitVec.toNat_mul, byteOffsetOf_toNat]; omega

/-! The slicer's reads, in numbers -/

theorem guardedRead_of_lt {buf : Vector Byte 33} {i : Nat} (h : i < 33) : guardedRead buf i = buf[i] := by
  simp [guardedRead, h]

theorem guardedRead_of_ge {buf : Vector Byte 33} {i : Nat} (h : 33 ≤ i) : guardedRead buf i = 0#8 := by
  simp [guardedRead, Nat.not_lt.mpr h]

/-- Bit `j` of the assembled word is bit `j mod 8` of its byte. -/
theorem leWord_getLsbD (buf : Vector Byte 33) (o j : Nat) (h : j < 32) :
    (leWord buf o).getLsbD j = (guardedRead buf (o + j / 8)).getLsbD (j % 8) := by
  have h4 : j / 8 = 0 ∨ j / 8 = 1 ∨ j / 8 = 2 ∨ j / 8 = 3 := by omega
  simp only [leWord, BitVec.getLsbD_or, BitVec.getLsbD_shiftLeft, BitVec.getLsbD_setWidth]
  rcases h4 with h4 | h4 | h4 | h4
  · have : j % 8 = j := by omega
    simp [h, h4, this, show j < 8 by omega, show j < 16 by omega, show j < 24 by omega]
  · have : j % 8 = j - 8 := by omega
    have hb : (guardedRead buf o).getLsbD j = false := BitVec.getLsbD_of_ge _ _ (by omega)
    simp [h, h4, this, hb, show ¬ j < 8 by omega, show j < 16 by omega, show j < 24 by omega, show j - 8 < 32 by omega]
  · have : j % 8 = j - 16 := by omega
    have hb : (guardedRead buf o).getLsbD j = false := BitVec.getLsbD_of_ge _ _ (by omega)
    have hc : (guardedRead buf (o + 1)).getLsbD (j - 8) = false := BitVec.getLsbD_of_ge _ _ (by omega)
    simp [h, h4, this, hb, hc, show ¬ j < 8 by omega, show ¬ j < 16 by omega, show j < 24 by omega, show j - 16 < 32 by omega]
  · have : j % 8 = j - 24 := by omega
    have hb : (guardedRead buf o).getLsbD j = false := BitVec.getLsbD_of_ge _ _ (by omega)
    have hc : (guardedRead buf (o + 1)).getLsbD (j - 8) = false := BitVec.getLsbD_of_ge _ _ (by omega)
    have hd : (guardedRead buf (o + 2)).getLsbD (j - 16) = false := BitVec.getLsbD_of_ge _ _ (by omega)
    simp [h, h4, this, hb, hc, hd, show ¬ j < 8 by omega, show ¬ j < 16 by omega, show ¬ j < 24 by omega,
      show j - 24 < 32 by omega]

/-- Bit `j` of a field is bit `(shift + j) mod 8` of its byte. -/
theorem fieldAt_getLsbD (buf : Vector Byte 33) (o : BitVec 6) (shift : BitVec 3) (j : Nat) (h : j < 11) :
    (fieldAt buf o shift).getLsbD j
      = (guardedRead buf (o.toNat + (shift.toNat + j) / 8)).getLsbD ((shift.toNat + j) % 8) := by
  have hs := shift.isLt
  have hm : (0x7FF#32).getLsbD j = true := by
    have : j ∈ List.range 11 := List.mem_range.mpr h
    revert this; revert j; decide
  simp only [fieldAt, BitVec.getLsbD_extractLsb', BitVec.getLsbD_and, BitVec.getLsbD_ushiftRight, Nat.zero_add, h, hm,
    decide_true, Bool.true_and, Bool.and_true]
  exact leWord_getLsbD buf o.toNat (shift.toNat + j) (by omega)

theorem toNat_or_shiftLeft (a b : Word) (i : Nat) (ha : a.toNat < 2 ^ i) (hb : b.toNat * 2 ^ i < 2 ^ 32) :
    (a ||| b <<< i).toNat = a.toNat + 2 ^ i * b.toNat := by
  rw [BitVec.toNat_or, BitVec.toNat_shiftLeft, Nat.shiftLeft_eq, Nat.mod_eq_of_lt hb, ← Nat.shiftLeft_eq, Nat.or_comm,
    ← Nat.shiftLeft_add_eq_or_of_lt ha, Nat.shiftLeft_eq, Nat.add_comm, Nat.mul_comm]

/-- The assembled word as a number: the byte at the lowest index at the lowest weight (R34). -/
theorem leWord_toNat (buf : Vector Byte 33) (o : Nat) :
    (leWord buf o).toNat = (guardedRead buf o).toNat + 2 ^ 8 * (guardedRead buf (o + 1)).toNat
      + 2 ^ 16 * (guardedRead buf (o + 2)).toNat + 2 ^ 24 * (guardedRead buf (o + 3)).toNat := by
  have h0 := (guardedRead buf o).isLt
  have h1 := (guardedRead buf (o + 1)).isLt
  have h2 := (guardedRead buf (o + 2)).isLt
  have h3 := (guardedRead buf (o + 3)).isLt
  have z : ∀ b : Byte, (b.setWidth 32).toNat = b.toNat := fun b => by simp; omega
  have e1 : ((guardedRead buf o).setWidth 32 ||| (guardedRead buf (o + 1)).setWidth 32 <<< 8).toNat
      = (guardedRead buf o).toNat + 2 ^ 8 * (guardedRead buf (o + 1)).toNat := by
    rw [toNat_or_shiftLeft] <;> simp only [z] <;> omega
  have e2 : ((guardedRead buf o).setWidth 32 ||| (guardedRead buf (o + 1)).setWidth 32 <<< 8
        ||| (guardedRead buf (o + 2)).setWidth 32 <<< 16).toNat
      = (guardedRead buf o).toNat + 2 ^ 8 * (guardedRead buf (o + 1)).toNat + 2 ^ 16 * (guardedRead buf (o + 2)).toNat := by
    rw [toNat_or_shiftLeft] <;> simp only [z, e1] <;> omega
  rw [leWord, toNat_or_shiftLeft] <;> simp only [z, e2] <;> omega

/-- The field as a number: the word shifted right and cut to 11 bits (R59). -/
theorem fieldAt_toNat (buf : Vector Byte 33) (o : BitVec 6) (shift : BitVec 3) :
    (fieldAt buf o shift).toNat = (leWord buf o.toNat).toNat / 2 ^ shift.toNat % 2 ^ 11 := by
  simp only [fieldAt, BitVec.extractLsb'_toNat, BitVec.toNat_and, BitVec.toNat_ushiftRight, Nat.shiftRight_eq_div_pow]
  rw [show Config.fieldMask.toNat = 2 ^ 11 - 1 from rfl, Nat.and_two_pow_sub_one_eq_mod, Nat.pow_zero, Nat.div_one,
    Nat.mod_mod]

end Sys2Proof.Machine
end

