-- ==== Sys2Proof/Laws/Decode.lean ====
section
/-!
SUPPORT. The fields of a command word under `|||`, what the decoder can answer, and what issuing a word can do.
-/

namespace Sys2Proof

theorem fitsIdx_iff (idx : Byte) : fitsIdx idx = true ↔ idx.toNat ≤ 63 := by simp [fitsIdx]

/-! The fields of words joined by `|||` -/

theorem opField_or (a b : Word) : opField (a ||| b) = opField a ||| opField b := by
  simp [opField, BitVec.extractLsb'_or]

theorem idxField_or (a b : Word) : idxField (a ||| b) = idxField a ||| idxField b := by
  simp [idxField, BitVec.extractLsb'_or]

theorem dataField_or (a b : Word) : dataField (a ||| b) = dataField a ||| dataField b := by
  simp [dataField, BitVec.extractLsb'_or]

/-! An index operand in its place -/

theorem opField_idx (idx : Byte) (h : fitsIdx idx = true) : opField (idx.setWidth 32 <<< 16) = 0#4 := by
  revert h; revert idx; decide

theorem idxField_idx (idx : Byte) (h : fitsIdx idx = true) : idxField (idx.setWidth 32 <<< 16) = idx := by
  revert h; revert idx; decide

theorem dataField_idx (idx : Byte) : dataField (idx.setWidth 32 <<< 16) = 0#8 := by revert idx; decide

/-- An index that fits its field sets no bit outside it. -/
theorem idx_masked (idx : Byte) (h : fitsIdx idx = true) : (idx.setWidth 32 <<< 16) &&& 0xFFC0FFFF#32 = 0#32 := by
  revert h; revert idx; decide

theorem idx_masked_low (idx : Byte) (h : fitsIdx idx = true) : (idx.setWidth 32 <<< 16) &&& 0xFFC0FF00#32 = 0#32 := by
  revert h; revert idx; decide

/-! A byte operand in its place -/

theorem opField_data (data : Byte) : opField (data.setWidth 32) = 0#4 := by revert data; decide

theorem idxField_data (data : Byte) : idxField (data.setWidth 32) = 0#8 := by revert data; decide

theorem dataField_data (data : Byte) : dataField (data.setWidth 32) = data := by revert data; decide

theorem data_masked (data : Byte) : data.setWidth 32 &&& 0xFFC0FF00#32 = 0#32 := by revert data; decide

/-! A word as its fixed bits and its operands -/

theorem mask_or_mask_not (w m : Word) : (w &&& m) ||| (w &&& ~~~m) = w := by
  apply BitVec.eq_of_getLsbD_eq; intro i hi
  simp only [BitVec.getLsbD_or, BitVec.getLsbD_and, BitVec.getLsbD_not, hi, decide_true, Bool.true_and]
  cases w.getLsbD i <;> cases m.getLsbD i <;> rfl

/-- The bits a row with an index alone leaves free are the index in its place. -/
theorem and_idx_mask (w : Word) : w &&& 0x003F0000#32 = (idxField w).setWidth 32 <<< 16 := by
  apply BitVec.eq_of_getLsbD_eq; intro i hi
  interval_cases i <;> simp [idxField]

/-- The bits a row with both operands leaves free are the operands in their places. -/
theorem and_operand_mask (w : Word) :
    w &&& 0x003F00FF#32 = (idxField w).setWidth 32 <<< 16 ||| (dataField w).setWidth 32 := by
  apply BitVec.eq_of_getLsbD_eq; intro i hi
  interval_cases i <;> simp [idxField, dataField]

/-- The index field of any word fits the field. -/
theorem idxField_fits (w : Word) : fitsIdx (idxField w) = true := by
  have := w.isLt
  simp [fitsIdx, idxField]; omega

/-! The decoder -/

/-- `OP` as a number is the word's top nibble. -/
theorem opField_toNat (w : Word) : (opField w).toNat = (w >>> 28).toNat := by
  have := w.isLt
  simp [opField, BitVec.extractLsb'_toNat, Nat.shiftRight_eq_div_pow]
  omega

/-- A word decodes exactly by a row of the map whose pattern it has under the row's mask. -/
theorem decode_eq_ok_iff {w : Word} {i : Instr} :
    decode w = .ok i ↔ ∃ row, opcodeMap[(opField w).toNat]? = some row
      ∧ w &&& row.mask = row.pattern ∧ i = row.build (idxField w) (dataField w) := by
  unfold decode; split
  · next h => simp [h]
  · next row h =>
    simp only [h, Option.some.injEq, exists_eq_left']
    split
    · next hm => simp [hm, eq_comm]
    · next hm => simp [hm]

/-- The decoder raises `ILLEGAL_OP` exactly for the opcodes the map has no row for. -/
theorem decode_eq_illegalOp_iff {w : Word} : decode w = .error .illegalOp ↔ 11 ≤ (opField w).toNat := by
  unfold decode; split
  · next h => simpa [opcodeMap] using h
  · next row h =>
    have := (List.getElem?_eq_some_iff.mp h).1
    simp only [opcodeMap, List.length_cons, List.length_nil] at this
    split <;> simp <;> omega

/-- The decoder raises `RSV_NONZERO` exactly where the row's pattern fails under its mask. -/
theorem decode_eq_rsvNonzero_iff {w : Word} :
    decode w = .error .rsvNonzero ↔ ∃ row, opcodeMap[(opField w).toNat]? = some row ∧ w &&& row.mask ≠ row.pattern := by
  unfold decode; split
  · next h => simp [h]
  · next row h =>
    simp only [h, Option.some.injEq, exists_eq_left']
    split
    · next hm => simp [hm]
    · next hm => simp [hm]

/-- Every word decodes, or raises one of the two decode errors. -/
theorem decode_cases (w : Word) :
    (∃ i, decode w = .ok i) ∨ decode w = .error .illegalOp ∨ decode w = .error .rsvNonzero := by
  unfold decode; split
  · exact .inr (.inl rfl)
  · split
    · exact .inl ⟨_, rfl⟩
    · exact .inr (.inr rfl)

theorem tableWord_toNat (w : Word) : tableWord 32 w.toNat = w := by
  simp [tableWord, Nat.mod_eq_of_lt w.isLt]

/-- On the 32 bits of a word `decodeTableWord` is the decoder. -/
theorem decodeTableWord_eq_some_iff {w : Word} {i : Instr} : decodeTableWord 32 w.toNat = some i ↔ decode w = .ok i := by
  simp only [decodeTableWord, tableWord_toNat, Nat.le_refl, if_true]
  split <;> simp_all

namespace Machine

/-! Issuing a word -/

theorem issue_of_ok {w : Word} {i : Instr} (h : decode w = .ok i) (s : State) : issue w s = exec i s := by
  simp [issue, h]

theorem issue_of_error {w : Word} {c : ErrorCode} (h : decode w = .error c) (s : State) : issue w s = .next (s.latch c) := by
  simp [issue, h, raise_eq]

/-- An issued word that answers a next state ran its command, or only latched its decode error. -/
theorem issue_cases {w : Word} {s t : State} (h : issue w s = .next t) :
    (∃ i, decode w = .ok i ∧ exec i s = .next t) ∨ ∃ c, decode w = .error c ∧ t = s.latch c := by
  cases hd : decode w with
  | ok i => exact .inl ⟨i, rfl, by rwa [issue_of_ok hd] at h⟩
  | error c =>
    rw [issue_of_error hd] at h
    exact .inr ⟨c, rfl, by injection h with h; exact h.symm⟩

end Machine

end Sys2Proof
end

