-- ==== Sys2Proof/Laws/Exec.lean ====
section
/-!
SUPPORT. What each command and a step can do, said once: the next state a command answers is its own effect, or the state before
it with its error latched.
-/

namespace Sys2Proof.Machine

open Sys2Proof

variable {s t : State} {idx data : Byte}

/-! What each command does, from a state and operands -/

theorem exec_asm_eq : exec .asm s = .next { s with buf := reversedWithChecksum s.dig }.cursorReset := rfl

theorem exec_rstat_eq : exec .rstat s = .next (s.answer s.status) := rfl

theorem exec_clr_eq : exec .clr s = .next s.clear := rfl

theorem exec_wdig_of_lt (h : idx.toNat < 32) : exec (.wdig idx data) s = .next { s with dig := s.dig.set idx.toNat data h } := by
  simp only [exec, execWdig, withIndex_of_lt h]

theorem exec_wdig_of_ge (h : 32 ≤ idx.toNat) : exec (.wdig idx data) s = .next (s.latch .indexRange) := by
  simp only [exec, execWdig, withIndex_of_ge h]

theorem exec_wbuf_of_lt (h : idx.toNat < 33) :
    exec (.wbuf idx data) s = .next { s with buf := s.buf.set idx.toNat data h }.cursorReset := by
  simp only [exec, execWbuf, withIndex_of_lt h]

theorem exec_wbuf_of_ge (h : 33 ≤ idx.toNat) : exec (.wbuf idx data) s = .next (s.latch .indexRange) := by
  simp only [exec, execWbuf, withIndex_of_ge h]

theorem exec_step_of_lt (h : s.k.toNat < 24) : exec .step s = .next (iter s) := extraction_of_lt h

theorem exec_step_of_eq (h : s.k.toNat = 24) : exec .step s = .next (s.latch .sequence) := extraction_of_eq h

theorem exec_run_of_lt (h : s.k.toNat < 24) : exec .run s = .next (iterWhile 24 s) := extraction_of_lt h

theorem exec_run_of_eq (h : s.k.toNat = 24) : exec .run s = .next (s.latch .sequence) := extraction_of_eq h

theorem exec_rseed_of_ge (h : 24 ≤ idx.toNat) : exec (.rseed idx) s = .next (s.latch .indexRange) := by
  simp only [exec, execRseed, withIndex_of_ge h]

theorem exec_rbuf_of_lt (h : idx.toNat < 33) : exec (.rbuf idx) s = .next (s.answer s.buf[idx.toNat]) := by
  simp only [exec, execRbuf, withIndex_of_lt h, Fin.getElem_fin]

theorem exec_rbuf_of_ge (h : 33 ≤ idx.toNat) : exec (.rbuf idx) s = .next (s.latch .indexRange) := by
  simp only [exec, execRbuf, withIndex_of_ge h]

theorem exec_rdig_of_lt (h : idx.toNat < 32) : exec (.rdig idx) s = .next (s.answer s.dig[idx.toNat]) := by
  simp only [exec, execRdig, withIndex_of_lt h, Fin.getElem_fin]

theorem exec_rdig_of_ge (h : 32 ≤ idx.toNat) : exec (.rdig idx) s = .next (s.latch .indexRange) := by
  simp only [exec, execRdig, withIndex_of_ge h]

/-! The next states each command can answer -/

theorem exec_nop_next (h : exec .nop s = .next t) : t = s := (Host.Outcome.next.inj h).symm

theorem exec_wdig_next (h : exec (.wdig idx data) s = .next t) :
    (∃ lt : idx.toNat < 32, t = { s with dig := s.dig.set idx.toNat data lt })
      ∨ (32 ≤ idx.toNat ∧ t = s.latch .indexRange) := by
  simp only [exec, execWdig] at h
  rcases withIndex_cases h with ⟨lt, h⟩ | h
  · exact .inl ⟨lt, (Host.Outcome.next.inj h).symm⟩
  · exact .inr h

theorem exec_wbuf_next (h : exec (.wbuf idx data) s = .next t) :
    (∃ lt : idx.toNat < 33, t = { s with buf := s.buf.set idx.toNat data lt }.cursorReset)
      ∨ (33 ≤ idx.toNat ∧ t = s.latch .indexRange) := by
  simp only [exec, execWbuf] at h
  rcases withIndex_cases h with ⟨lt, h⟩ | h
  · exact .inl ⟨lt, (Host.Outcome.next.inj h).symm⟩
  · exact .inr h

theorem exec_asm_next (h : exec .asm s = .next t) : t = { s with buf := reversedWithChecksum s.dig }.cursorReset :=
  (Host.Outcome.next.inj h).symm

theorem exec_step_next (h : exec .step s = .next t) :
    (s.k.toNat < 24 ∧ t = iter s) ∨ (s.k.toNat = 24 ∧ t = s.latch .sequence) := extraction_cases h

theorem exec_run_next (h : exec .run s = .next t) :
    (s.k.toNat < 24 ∧ t = iterWhile 24 s) ∨ (s.k.toNat = 24 ∧ t = s.latch .sequence) := extraction_cases h

theorem exec_rseed_next (h : exec (.rseed idx) s = .next t) :
    (∃ (lt : idx.toNat < 24) (v : SeedVal), idx.toNat < s.k.toNat ∧ s.seed[idx.toNat] = some v ∧ t = s.answer v)
      ∨ (idx.toNat < 24 ∧ s.k.toNat ≤ idx.toNat ∧ t = s.latch .notReady)
      ∨ (24 ≤ idx.toNat ∧ t = s.latch .indexRange) := by
  rcases Nat.lt_or_ge idx.toNat 24 with lt | ge
  · change execRseed idx s = _ at h
    rw [execRseed_of_lt lt] at h
    split at h
    · next hk => exact .inr (.inl ⟨lt, hk, (Host.Outcome.next.inj h).symm⟩)
    · next hk =>
      have hk := Nat.not_le.mp hk
      rw [State.seedAt_of_lt (show (⟨idx.toNat, lt⟩ : Fin 24).val < s.k.toNat from hk)] at h
      split at h
      · next v hv => exact .inl ⟨lt, v, hk, hv, (Host.Outcome.next.inj h).symm⟩
      · cases h
  · simp only [exec, execRseed, withIndex_of_ge ge] at h
    exact .inr (.inr ⟨ge, (Host.Outcome.next.inj h).symm⟩)

theorem exec_rbuf_next (h : exec (.rbuf idx) s = .next t) :
    (∃ lt : idx.toNat < 33, t = s.answer s.buf[idx.toNat]) ∨ (33 ≤ idx.toNat ∧ t = s.latch .indexRange) := by
  simp only [exec, execRbuf] at h
  rcases withIndex_cases h with ⟨lt, h⟩ | h
  · exact .inl ⟨lt, (Host.Outcome.next.inj h).symm⟩
  · exact .inr h

theorem exec_rdig_next (h : exec (.rdig idx) s = .next t) :
    (∃ lt : idx.toNat < 32, t = s.answer s.dig[idx.toNat]) ∨ (32 ≤ idx.toNat ∧ t = s.latch .indexRange) := by
  simp only [exec, execRdig] at h
  rcases withIndex_cases h with ⟨lt, h⟩ | h
  · exact .inl ⟨lt, (Host.Outcome.next.inj h).symm⟩
  · exact .inr h

theorem exec_rstat_next (h : exec .rstat s = .next t) : t = s.answer s.status := (Host.Outcome.next.inj h).symm

theorem exec_clr_next (h : exec .clr s = .next t) : t = s.clear := (Host.Outcome.next.inj h).symm

/-! No command looks at the pending inputs -/

theorem latch_withInputs (s : State) (l : List HostInput) (c : ErrorCode) :
    ({ s with inputs := l } : State).latch c = { s.latch c with inputs := l } := by
  simp [State.latch_eq]

theorem iter_withInputs (s : State) (l : List HostInput) : iter { s with inputs := l } = { iter s with inputs := l } := rfl

theorem iterWhile_withInputs (n : Nat) (s : State) (l : List HostInput) :
    iterWhile n { s with inputs := l } = { iterWhile n s with inputs := l } := by
  induction n generalizing s with
  | zero => rfl
  | succ n ih =>
    simp only [iterWhile]
    split
    · rw [iter_withInputs, ih]
    · rfl

/-- What the host will do later changes nothing about a command. -/
theorem exec_withInputs (i : Instr) (s t : State) (l : List HostInput) (h : exec i s = .next t) :
    exec i { s with inputs := l } = .next { t with inputs := l } := by
  cases i
  case nop => rw [exec_nop_next h]; rfl
  case wdig idx data =>
    rcases exec_wdig_next h with ⟨lt, rfl⟩ | ⟨ge, rfl⟩
    · simp only [exec, execWdig, withIndex_of_lt lt]
    · simp only [exec, execWdig, withIndex_of_ge ge, latch_withInputs]
  case wbuf idx data =>
    rcases exec_wbuf_next h with ⟨lt, rfl⟩ | ⟨ge, rfl⟩
    · simp only [exec, execWbuf, withIndex_of_lt lt]; rfl
    · simp only [exec, execWbuf, withIndex_of_ge ge, latch_withInputs]
  case asm => rw [exec_asm_next h]; rfl
  case step =>
    rcases exec_step_next h with ⟨lt, rfl⟩ | ⟨ge, rfl⟩
    · exact extraction_of_lt lt
    · rw [← latch_withInputs]; exact extraction_of_eq ge
  case run =>
    rcases exec_run_next h with ⟨lt, rfl⟩ | ⟨ge, rfl⟩
    · rw [← iterWhile_withInputs]; exact extraction_of_lt lt
    · rw [← latch_withInputs]; exact extraction_of_eq ge
  case rseed idx =>
    rcases exec_rseed_next h with ⟨lt, v, hk, hv, rfl⟩ | ⟨lt, hk, rfl⟩ | ⟨ge, rfl⟩
    · exact execRseed_of_valid lt hk hv
    · simp only [exec, execRseed_of_lt lt, hk, if_true, latch_withInputs]
    · simp only [exec, execRseed, withIndex_of_ge ge, latch_withInputs]
  case rbuf idx =>
    rcases exec_rbuf_next h with ⟨lt, rfl⟩ | ⟨ge, rfl⟩
    · simp only [exec, execRbuf, withIndex_of_lt lt]; rfl
    · simp only [exec, execRbuf, withIndex_of_ge ge, latch_withInputs]
  case rdig idx =>
    rcases exec_rdig_next h with ⟨lt, rfl⟩ | ⟨ge, rfl⟩
    · simp only [exec, execRdig, withIndex_of_lt lt]; rfl
    · simp only [exec, execRdig, withIndex_of_ge ge, latch_withInputs]
  case rstat => rw [exec_rstat_next h]; rfl
  case clr => rw [exec_clr_next h]; rfl

/-- Every way a step answers a next state: the oldest input is taken, or there is none and nothing happens. -/
theorem step_next_cases (h : step s = .next t) :
    (s.inputs = [] ∧ t = s)
      ∨ (∃ w rest, s.inputs = .command w :: rest ∧ issue w { s with inputs := rest } = .next t)
      ∨ ∃ rest, s.inputs = .rst :: rest ∧ t = { State.reset with inputs := rest } := by
  unfold step acceptNext at h
  split at h
  · next hi => exact .inl ⟨hi, (Host.Outcome.next.inj h).symm⟩
  · next x rest hi =>
    cases x with
    | command w => exact .inr (.inl ⟨w, rest, hi, h⟩)
    | rst => exact .inr (.inr ⟨rest, hi, (Host.Outcome.next.inj h).symm⟩)

/-- A property that each command, each latch and a change of the pending inputs keep, and that the reset state has, is kept by
every step. -/
theorem step_induction {P : State → Prop} (hinputs : ∀ s l, P s → P { s with inputs := l })
    (hlatch : ∀ s c, P s → P (s.latch c)) (hexec : ∀ i s t, P s → exec i s = .next t → P t) (hreset : P State.reset)
    (hs : P s) (h : step s = .next t) : P t := by
  rcases step_next_cases h with ⟨_, rfl⟩ | ⟨w, rest, _, h⟩ | ⟨rest, _, rfl⟩
  · exact hs
  · rcases issue_cases h with ⟨i, _, h⟩ | ⟨c, _, rfl⟩
    · exact hexec i _ t (hinputs s rest hs) h
    · exact hlatch _ c (hinputs s rest hs)
  · exact hinputs State.reset rest hreset

end Sys2Proof.Machine
end

