-- ==== Sys2Proof/Laws/PerInstr.lean ====
section
/-!
SUPPORT. One lemma per command: the word of a command whose operands fit its encoding has the opcode of a row of the opcode map and
the row's pattern under its mask (spec/30_encoding.md R49, R53).
-/

namespace Sys2Proof.Laws.EncodeInRow

open Sys2Proof

/-- The encoding lies in a row of R49, at the row's own opcode. -/
def Statement (i : Instr) : Prop :=
  i.wf = true → ∃ row, opcodeMap[(opField (encode i)).toNat]? = some row ∧ encode i &&& row.mask = row.pattern

/-- The word of a command with both operands has the opcode, and only operand bits beside it. -/
theorem both_operands {op : Word} {n : Nat} {row : OpcodeRow} {idx data : Byte} (h : fitsIdx idx = true)
    (hn : (opField (op <<< 28)).toNat = n) (hrow : opcodeMap[n]? = some row) (hmask : row.mask = 0xFFC0FF00#32)
    (hp : (op <<< 28) &&& row.mask = row.pattern) :
    ∃ row, opcodeMap[(opField (placeFields op (idx.setWidth 32) (data.setWidth 32))).toNat]? = some row
      ∧ placeFields op (idx.setWidth 32) (data.setWidth 32) &&& row.mask = row.pattern := by
  refine ⟨row, ?_, ?_⟩
  · rw [placeFields, opField_or, opField_or, opField_idx idx h, opField_data, BitVec.or_zero, BitVec.or_zero, hn, hrow]
  · rw [placeFields, BitVec.and_or_distrib_right, BitVec.and_or_distrib_right, hp, hmask, idx_masked_low idx h, data_masked,
      BitVec.or_zero, BitVec.or_zero]

/-- The word of a command with an index alone has the opcode, and only index bits beside it. -/
theorem index_operand {op : Word} {n : Nat} {row : OpcodeRow} {idx : Byte} (h : fitsIdx idx = true)
    (hn : (opField (op <<< 28)).toNat = n) (hrow : opcodeMap[n]? = some row) (hmask : row.mask = 0xFFC0FFFF#32)
    (hp : (op <<< 28) &&& row.mask = row.pattern) :
    ∃ row, opcodeMap[(opField (placeFields op (idx.setWidth 32) 0#32)).toNat]? = some row
      ∧ placeFields op (idx.setWidth 32) 0#32 &&& row.mask = row.pattern := by
  refine ⟨row, ?_, ?_⟩
  · rw [placeFields, BitVec.or_zero, opField_or, opField_idx idx h, BitVec.or_zero, hn, hrow]
  · rw [placeFields, BitVec.or_zero, BitVec.and_or_distrib_right, hp, hmask, idx_masked idx h, BitVec.or_zero]

theorem nop : Statement .nop := fun _ => ⟨_, rfl, by decide⟩
theorem wdig (idx data : Byte) : Statement (.wdig idx data) := fun h => both_operands (n := 1) h (by decide) rfl rfl (by decide)
theorem wbuf (idx data : Byte) : Statement (.wbuf idx data) := fun h => both_operands (n := 2) h (by decide) rfl rfl (by decide)
theorem asm : Statement .asm := fun _ => ⟨_, rfl, by decide⟩
theorem step : Statement .step := fun _ => ⟨_, rfl, by decide⟩
theorem run : Statement .run := fun _ => ⟨_, rfl, by decide⟩
theorem rseed (idx : Byte) : Statement (.rseed idx) := fun h => index_operand (n := 6) h (by decide) rfl rfl (by decide)
theorem rbuf (idx : Byte) : Statement (.rbuf idx) := fun h => index_operand (n := 7) h (by decide) rfl rfl (by decide)
theorem rdig (idx : Byte) : Statement (.rdig idx) := fun h => index_operand (n := 8) h (by decide) rfl rfl (by decide)
theorem rstat : Statement .rstat := fun _ => ⟨_, rfl, by decide⟩
theorem clr : Statement .clr := fun _ => ⟨_, rfl, by decide⟩

end Sys2Proof.Laws.EncodeInRow
end

