-- ==== Sys2Proof/Laws/Safety.lean ====
section
/-!
SUPPORT. Which fields the invariants read: a state that has them from another keeps the other's invariants.
-/

namespace Sys2Proof.Machine

open Sys2Proof

theorem State.CursorInv.of_same {s t : State} (h : s.CursorInv) (hk : t.k = s.k) (hb : t.bitCount = s.bitCount)
    (ho : t.byteOffset = s.byteOffset) (hs : t.bitShift = s.bitShift) : t.CursorInv := by
  unfold State.CursorInv; rw [hk, hb, ho, hs]; exact h

/-- A cursor just reset meets its invariant. -/
theorem State.CursorInv.of_zero {s : State} (hk : s.k = 0#5) (hb : s.bitCount = 0#9) (ho : s.byteOffset = 0#6)
    (hs : s.bitShift = 0#3) : s.CursorInv := by
  unfold State.CursorInv; rw [hk, hb, ho, hs]; decide

theorem State.SeedInv.of_same {s t : State} (h : s.SeedInv) (hk : t.k = s.k) (hseed : t.seed = s.seed) (hbuf : t.buf = s.buf) :
    t.SeedInv := by
  unfold State.SeedInv; rw [hk, hseed, hbuf]; exact h

theorem State.ZfInv.of_same {s t : State} (h : s.ZfInv) (hk : t.k = s.k) (hseed : t.seed = s.seed) (hz : t.zf = s.zf) :
    t.ZfInv := by
  unfold State.ZfInv; rw [hk, hseed, hz]; exact h

/-- A command that writes none of `BUF`, `SEED`, the cursor and `ZF`, and leaves a legal `ERR`, keeps the invariants. -/
theorem State.Inv.of_same {s t : State} (h : s.Inv) (hbuf : t.buf = s.buf) (hseed : t.seed = s.seed) (hk : t.k = s.k)
    (hb : t.bitCount = s.bitCount) (ho : t.byteOffset = s.byteOffset) (hs : t.bitShift = s.bitShift) (hz : t.zf = s.zf)
    (he : t.err.toNat ≤ 5) : t.Inv :=
  ⟨h.1.of_same hk hb ho hs, he, State.SeedInv.of_same h.2.2.1 hk hseed hbuf, State.ZfInv.of_same h.2.2.2 hk hseed hz⟩

/-- A state whose cursor and `ZF` were just reset has no valid seed and meets the invariants. -/
theorem State.Inv.of_zero {s : State} (hk : s.k = 0#5) (hb : s.bitCount = 0#9) (ho : s.byteOffset = 0#6) (hs : s.bitShift = 0#3)
    (hz : s.zf = false) (he : s.err.toNat ≤ 5) : s.Inv := by
  refine ⟨.of_zero hk hb ho hs, he, fun j hj => ?_, ?_⟩
  · rw [hk] at hj; exact absurd hj (Nat.not_lt_zero _)
  · unfold State.ZfInv; rw [hk, hz]
    exact ⟨fun h => Bool.noConfusion h, fun ⟨_, hj, _⟩ => absurd hj (Nat.not_lt_zero _)⟩

/-- The latch keeps a legal `ERR` legal. -/
theorem State.ErrInv.latch {s : State} (h : s.ErrInv) (c : ErrorCode) : (s.latch c).ErrInv := by
  unfold State.ErrInv; rw [State.latch_err]; split
  · exact errorBits_le_five c
  · exact h

/-- The latch keeps the invariants. -/
theorem State.Inv.latch {s : State} (h : s.Inv) (c : ErrorCode) : (s.latch c).Inv :=
  h.of_same (by simp) (by simp) (by simp) (by simp) (by simp) (by simp) (by simp) (State.ErrInv.latch h.2.1 c)

end Sys2Proof.Machine
end

