-- ==== Sys2Proof/Tests/Slice0.lean ====
section
/-!
SUPPORT. Small tests whose expected values are those of spec/95_test_vectors.md and of the examples in the commands' rules, and a
witness for the hypotheses of each statement.
-/

namespace Sys2Proof.Tests

open Sys2Proof Sys2Proof.Machine Sys2Proof.Claims

/-- A field of the next state, if there is one. -/
def got {α : Type} (o : Result) (f : State → α) : Option α :=
  match o with
  | .next t => some (f t)
  | .fault _ => none
  | .refused _ => none

/-- The buffer `ASM` builds from the digest `d[i] = i` (V20). -/
def countdown : Vector Byte 33 := Vector.ofFn fun i => if i.val = 32 then 31#8 else BitVec.ofNat 8 (31 - i.val)

/-- The digest `d[i] = i` (V12). -/
def countup : Vector Byte 32 := Vector.ofFn fun i => BitVec.ofNat 8 i.val

/-- Reset but for `BUF`. -/
def withBuf (b : Vector Byte 33) : State := { State.reset with buf := b }

/-- The cursor after `k` iterations (R62), over a given buffer, with the seeds' contents left at no value. -/
def atIteration (k : Nat) (b : Vector Byte 33) : State :=
  { withBuf b with
    k := BitVec.ofNat 5 k, bitCount := BitVec.ofNat 9 (11 * k), byteOffset := BitVec.ofNat 6 (11 * k / 8)
    bitShift := BitVec.ofNat 3 (11 * k % 8) }

/-- All 24 iterations over a buffer. -/
def extracted (b : Vector Byte 33) : State := iterWhile 24 (withBuf b)

/-! Well-formedness: each check refuses an index that does not fit its field (R46, R53). -/

theorem test_wf_wdig_refuses_64 : (Instr.wdig 64#8 0#8).wf = false := by decide
theorem test_wf_wbuf_refuses_64 : (Instr.wbuf 64#8 0xFF#8).wf = false := by decide
theorem test_wf_rseed_refuses_64 : (Instr.rseed 64#8).wf = false := by decide
theorem test_wf_rbuf_refuses_255 : (Instr.rbuf 255#8).wf = false := by decide
theorem test_wf_rdig_refuses_128 : (Instr.rdig 128#8).wf = false := by decide
theorem test_wf_accepts_63 : (Instr.rseed 63#8).wf = true := by decide

/-! Decoding: words written out from R49's bit patterns, one for each row, and words of V30 to V36 that raise. -/

theorem test_decode_nop : decode 0b00000000000000000000000000000000#32 = .ok .nop := by rfl
theorem test_decode_wdig : decode 0b00010000000111110000000010000001#32 = .ok (.wdig 31#8 0x81#8) := by rfl
theorem test_decode_wbuf : decode 0b00100000001000000000000010000000#32 = .ok (.wbuf 32#8 0x80#8) := by rfl
theorem test_decode_asm : decode 0b00110000000000000000000000000000#32 = .ok .asm := by rfl
theorem test_decode_step : decode 0b01000000000000000000000000000000#32 = .ok .step := by rfl
theorem test_decode_run : decode 0b01010000000000000000000000000000#32 = .ok .run := by rfl
theorem test_decode_rseed : decode 0b01100000000101110000000000000000#32 = .ok (.rseed 23#8) := by rfl
theorem test_decode_rbuf : decode 0b01110000001000000000000000000000#32 = .ok (.rbuf 32#8) := by rfl
theorem test_decode_rdig : decode 0b10000000000001010000000000000000#32 = .ok (.rdig 5#8) := by rfl
theorem test_decode_rstat : decode 0b10010000000000000000000000000000#32 = .ok .rstat := by rfl
theorem test_decode_clr : decode 0b10100000000000000000000000000000#32 = .ok .clr := by rfl
theorem test_decode_V33_illegal_first : decode 0xF0000001#32 = .error .illegalOp := by rfl
theorem test_decode_V34_reserved_data : decode 0x60280001#32 = .error .rsvNonzero := by rfl
theorem test_decode_V32_clr_reserved : decode 0xA0000100#32 = .error .rsvNonzero := by rfl
theorem test_encode_R55_example : encode (.wdig 5#8 0xAB#8) = 0x100500AB#32 := by decide
theorem test_decode_table_word : decodeTableWord 32 0x601E0000 = some (.rseed 30#8) := by decide
theorem test_decode_table_word_too_wide : decodeTableWord 40 0x601E0000 = none := by decide

/-! One command each. -/

theorem test_V30_nop_reserved_bit : got (issue 0x00000001#32 State.reset) State.err = some 2#3 := by decide
theorem test_V16_wdig : got (exec (.wdig 5#8 0xAB#8) State.reset) (fun t => (t.dig[5], t.buf[26])) = some (0xAB#8, 0#8) := by
  decide
theorem test_V17_wdig_out_of_range : got (exec (.wdig 32#8 1#8) State.reset) (fun t => (t.err, t.dig[0])) = some (3#3, 0#8) := by
  decide
theorem test_V18_wbuf_last : got (exec (.wbuf 32#8 0x80#8) State.reset) (fun t => t.buf[32]) = some 0x80#8 := by decide
theorem test_V19_wbuf_resets_cursor :
    got (exec (.wbuf 0#8 0xFF#8) (atIteration 24 (.replicate 33 0xFF#8))) (fun t => (t.k, t.bitCount, t.byteOffset, t.done))
      = some (0#5, 0#9, 0#6, false) := by decide
theorem test_V20_asm : got (exec .asm { State.reset with dig := countup }) State.buf = some countdown := by decide
theorem test_V22_asm_copies_last_not_first :
    got (exec .asm { State.reset with dig := State.reset.dig.set 0 0x55#8 }) (fun t => (t.buf[31], t.buf[32]))
      = some (0x55#8, 0#8) := by decide
theorem test_R60_step_example :
    got (exec .step (withBuf countdown)) (fun t => (t.seed[0], t.k, t.bitCount, t.byteOffset, t.bitShift))
      = some (some 1567#11, 1#5, 11#9, 1#6, 3#3) := by decide
theorem test_V14_step_at_24 : got (exec .step (atIteration 24 countdown)) (fun t => (t.err, t.k)) = some (4#3, 24#5) := by decide
theorem test_V12_run :
    got (exec .run (withBuf countdown)) (fun t => t.seed.toList.map (fun v => v.map BitVec.toNat)) = some
      ([1567, 931, 1136, 1293, 401, 1584, 1413, 168, 788, 578, 68, 1928, 224, 26, 707, 80, 9, 225, 1048, 514, 48, 516, 0, 248].map
        some) := by decide +kernel
theorem test_V1_run_zero : got (exec .run State.reset) (fun t => (t.zf, t.status)) = some (true, 0x84210078#32) := by
  decide
theorem test_V26_rseed_not_ready : got (exec (.rseed 0#8) State.reset) (fun t => (t.err, t.dout)) = some (5#3, 0#32) := by decide
theorem test_V35_rseed_range_first : got (exec (.rseed 30#8) State.reset) State.err = some 3#3 := by decide
theorem test_R68_rbuf_32 : got (exec (.rbuf 32#8) (withBuf countdown)) State.dout = some 0x0000001F#32 := by decide
theorem test_V27_rbuf_33 : got (exec (.rbuf 33#8) (withBuf countdown)) (fun t => (t.err, t.dout)) = some (3#3, 0#32) := by decide
theorem test_V28_rdig_31 : got (exec (.rdig 31#8) { State.reset with dig := countup }) State.dout = some 0x0000001F#32 := by decide
theorem test_V28_rdig_32 : got (exec (.rdig 32#8) { State.reset with dig := countup }) State.err = some 3#3 := by decide
theorem test_P3_rstat :
    got (exec .rstat { atIteration 1 (.replicate 33 0#8) with zf := true, err := 5#3 }) State.dout = some 0x05813541#32 := by decide
theorem test_V29_rstat : got (exec .rstat (atIteration 3 countdown)) State.dout = some 0x10841003#32 := by decide
theorem test_V31_clr : got (exec .clr { atIteration 3 countdown with err := 5#3, dout := 7#32 }) (· == State.reset) = some true := by
  decide

/-! Errors and the host's side. -/

theorem test_V36_reserved_before_sequence : got (issue 0x40000001#32 (atIteration 24 countdown)) State.err = some 2#3 := by decide
theorem test_V37_first_error_kept : got (issue 0xB0000000#32 { State.reset with err := 5#3 }) State.err = some 5#3 := by decide
theorem test_step_takes_oldest_input :
    got (step { State.reset with inputs := [.command 0x100500AB#32, .rst] }) (fun t => (t.dig[5], t.inputs))
      = some (0xAB#8, [.rst]) := by decide
theorem test_step_placed_word : got (step (State.reset.withFetchWord 32 0x40000000)) State.k = some 1#5 := by decide
theorem test_P3_observation_starts :
    (match runCommands [0x60000000#32, 0x90000000#32] State.reset with
      | .next (douts, _) => some douts
      | .fault _ => none
      | .refused _ => none) = some [0x00000000#32, 0x00000500#32] := by decide

/-! The assembler (R53, R54), on the lines and words of 95_test_vectors.md. -/

theorem test_assemble_wbuf : assembleLine "WBUF 32, 0x80    ; the checksum byte".toList = some [0x20200080#32] := by decide
theorem test_assemble_lower_case : assembleLine "  rseed 30".toList = some [0x601E0000#32] := by decide
theorem test_assemble_rejects_index : assembleLine "RBUF 64".toList = none := by decide
theorem test_assemble_rejects_byte : assembleLine "WDIG 0, 256".toList = none := by decide
theorem test_assemble_P2_end :
    assembleText "EXTRACT\n; done\nRDIG 31\n.word 0xB0000000".toList
      = some [0x30000000#32, 0x50000000#32, 0x801F0000#32, 0xB0000000#32] := by decide
theorem test_assemble_P1_fillbuf :
    (assembleLine "FILLBUF 0xFF".toList).map (fun ws => (ws.length, ws[1]?, ws[32]?))
      = some (33, some 0x200100FF#32, some 0x202000FF#32) := by decide

/-! Witnesses: for each statement with hypotheses, a state and operands that meet them, for each clause at the edge of its range. -/

theorem witness_EncodedCommandDecodesToItself : (Instr.wdig 63#8 0xFF#8).wf = true ∧ (Instr.rseed 0#8).wf = true := by decide
theorem witness_DecodedWordIsItsEncoding : decode 0x203F00FF#32 = .ok (.wbuf 63#8 0xFF#8) := by rfl
theorem witness_ReservedOpcodesRaiseIllegalOp : 0xB ≤ opOf 0xB0000000#32 ∧ 0xB ≤ opOf 0xFFFFFFFF#32 := by decide
theorem witness_NonzeroReservedBitsSuppressCommand :
    (opOf 0x00000001#32 < 0xB ∧ 0x00000001#32 &&& mustBeZero (opOf 0x00000001#32) ≠ 0#32)
      ∧ (opOf 0xA8000000#32 < 0xB ∧ 0xA8000000#32 &&& mustBeZero (opOf 0xA8000000#32) ≠ 0#32)
      ∧ (opOf 0x10000100#32 < 0xB ∧ 0x10000100#32 &&& mustBeZero (opOf 0x10000100#32) ≠ 0#32)
      ∧ (opOf 0x80000001#32 < 0xB ∧ 0x80000001#32 &&& mustBeZero (opOf 0x80000001#32) ≠ 0#32) := by decide
theorem witness_StepRunsDecodedCommand :
    ({ State.reset with inputs := [.command 0x40000000#32, .rst] } : State).inputs = .command 0x40000000#32 :: [.rst]
      ∧ decode 0x40000000#32 = .ok .step
      ∧ decode 0xB0000000#32 = .error .illegalOp ∧ decode 0x40000001#32 = .error .rsvNonzero := ⟨rfl, rfl, rfl, rfl⟩
theorem witness_ResetInputGivesResetState :
    ({ State.reset with k := 3#5, inputs := [.rst, .rst] } : State).inputs = .rst :: [.rst] := rfl
theorem witness_NothingHappensWithoutInput : ({ State.reset with k := 3#5 } : State).inputs = [] := rfl
theorem witness_PlacedWordRunsNext : decodeTableWord 32 (0x90000000#32 : Word).toNat = some .rstat := by decide
theorem witness_LaterInputsDoNotReachEarlierStep :
    ({ State.reset with inputs := [.rst] } : State).inputs ≠ []
      ∧ step { State.reset with inputs := [.rst] } = .next State.reset := ⟨by decide, rfl⟩

theorem witness_RunIsStepsOverPendingCommands :
    State.reset.inputs = [] ∧ ∃ p, runCommands [0x90000000#32, 0xB0000000#32] State.reset = .next p := ⟨rfl, _, rfl⟩

/-- Both clauses of each row's encoding have words: the row's own pattern, and it with a reserved bit set. -/
theorem witness_encodedAs :
    ∀ row ∈ opcodeMap, row.pattern &&& row.mask = row.pattern
      ∧ (row.pattern ||| 0x100#32) >>> 28 = row.pattern >>> 28
      ∧ (row.pattern ||| 0x100#32) &&& row.mask ≠ row.pattern := by decide

theorem witness_WdigWritesOneDigestByte : (31#8).toNat < 32 ∧ 32 ≤ (32#8).toNat := by decide
theorem witness_WbufWritesByteAndResetsCursor : (32#8).toNat < 33 ∧ 33 ≤ (33#8).toNat := by decide
theorem witness_StepCommandRunsOneIteration : (State.reset.CursorInv ∧ State.reset.k.toNat < 24)
    ∧ ((atIteration 23 countdown).CursorInv ∧ (atIteration 23 countdown).k.toNat < 24)
    ∧ (atIteration 24 countdown).k.toNat = 24 := by decide
theorem witness_RunCommandRunsRemainingIterations : State.reset.k.toNat < 24 ∧ (atIteration 23 countdown).k.toNat < 24
    ∧ (atIteration 24 countdown).k.toNat = 24 := by decide
theorem witness_RseedReadsValidSeed :
    ((23#8).toNat < (extracted countdown).k.toNat ∧ (extracted countdown).seed[23] = some 248#11)
      ∧ ((23#8).toNat < 24 ∧ (atIteration 23 countdown).k.toNat ≤ (23#8).toNat) ∧ 24 ≤ (24#8).toNat := by decide +kernel
theorem witness_RbufReadsBufferByte : (32#8).toNat < 33 ∧ 33 ≤ (33#8).toNat := by decide
theorem witness_RdigReadsDigestByte : (31#8).toNat < 32 ∧ 32 ≤ (32#8).toNat := by decide
theorem witness_CommandsWriteOnlyTheirElements :
    (∃ t, exec .nop State.reset = .next t) ∧ (∃ t, exec (.wdig 31#8 1#8) State.reset = .next t)
      ∧ (∃ t, exec (.wbuf 32#8 1#8) State.reset = .next t) ∧ (∃ t, exec .step (atIteration 23 countdown) = .next t)
      ∧ (∃ t, exec .run (atIteration 23 countdown) = .next t) ∧ (∃ t, exec .clr State.reset = .next t) :=
  ⟨⟨_, rfl⟩, ⟨_, exec_wdig_of_lt (by decide)⟩, ⟨_, exec_wbuf_of_lt (by decide)⟩, ⟨_, exec_step_of_lt (by decide)⟩,
    ⟨_, exec_run_of_lt (by decide)⟩, ⟨_, exec_clr_eq⟩⟩
theorem witness_ErrorsFollowCauseTable_inv : State.reset.Inv ∧ (extracted countdown).Inv := by decide +kernel
theorem witness_ErrorsFollowCauseTable_codes :
    errorOf 0xB0000000#32 State.reset = some 1#3 ∧ errorOf 0x00000001#32 State.reset = some 2#3
      ∧ errorOf 0x10200001#32 State.reset = some 3#3 ∧ errorOf 0x601E0000#32 State.reset = some 3#3
      ∧ errorOf 0x40000000#32 (extracted countdown) = some 4#3 ∧ errorOf 0x60170000#32 State.reset = some 5#3
      ∧ errorOf 0x60170000#32 (extracted countdown) = none ∧ errorOf 0xA0000000#32 State.reset = none := by decide
theorem witness_LatchedErrorStaysUntilClear :
    (({ State.reset with err := 5#3 } : State).err ≠ 0#3 ∧ ∃ t, issue 0x00000000#32 { State.reset with err := 5#3 } = .next t)
      ∧ (∃ t, issue 0xA0000000#32 { State.reset with err := 5#3 } = .next t) ∧ ∃ t, accept .rst State.reset = .next t :=
  ⟨⟨by decide, _, rfl⟩, ⟨_, rfl⟩, _, rfl⟩
theorem witness_LatchedErrorChangesNoOtherEffect :
    5#3 ≠ 0#3 ∧ (0x40000000#32 : Word) ≠ 0x90000000#32
      ∧ (∃ t, issue 0x40000000#32 { State.reset with err := 0#3 } = .next t)
      ∧ ∃ t, issue 0xA0000000#32 { State.reset with err := 0#3 } = .next t :=
  ⟨by decide, by decide, ⟨_, exec_step_of_lt (s := { State.reset with err := 0#3 }) (by decide)⟩, _, rfl⟩
theorem witness_ZeroFlagIsSticky :
    got (exec .asm { State.reset with zf := true }) State.zf = some false ∧ got (exec .step State.reset) State.zf = some true
      ∧ got (exec .run State.reset) State.zf = some true := by decide
theorem witness_ReadsAndLoadsAreIdempotent :
    (isRead (.rdig 31#8) = true ∧ ∃ t, exec (.rdig 31#8) State.reset = .next t)
      ∧ (isLoad .asm = true ∧ ∃ t, exec .asm State.reset = .next t)
      ∧ (State.reset.k.toNat < 24 ∧ (∃ t, exec .step State.reset = .next t) ∧ ∃ t, exec .run State.reset = .next t) :=
  ⟨⟨rfl, _, exec_rdig_of_lt (by decide)⟩, ⟨rfl, _, exec_asm_eq⟩, by decide, ⟨_, exec_step_of_lt (by decide)⟩,
    _, exec_run_of_lt (by decide)⟩
theorem witness_BufferWriteInvalidatesSeeds :
    (23#8).toNat < 24 ∧ (∃ t, exec .asm (extracted countdown) = .next t)
      ∧ ((32#8).toNat < 33 ∧ ∃ t, exec (.wbuf 32#8 1#8) (extracted countdown) = .next t) :=
  ⟨by decide, ⟨_, exec_asm_eq⟩, by decide, _, exec_wbuf_of_lt (by decide)⟩

/-- A state of the invariants in which the next step runs an iteration. -/
def readyToStep : State := { State.reset with inputs := [.command 0x40000000#32] }

theorem witness_EveryStepKeepsInvariant : readyToStep.Inv ∧ ∃ t, step readyToStep = .next t :=
  ⟨by decide, _, exec_step_of_lt (s := { readyToStep with inputs := [] }) (by decide)⟩
theorem witness_CursorInvariantKept :
    ((∃ t, exec .asm (atIteration 24 countdown) = .next t) ∧ (∃ t, exec .clr (atIteration 24 countdown) = .next t)
        ∧ (32#8).toNat < 33 ∧ ∃ t, exec (.wbuf 32#8 1#8) (atIteration 24 countdown) = .next t)
      ∧ readyToStep.CursorInv ∧ ∃ t, step readyToStep = .next t :=
  ⟨⟨⟨_, rfl⟩, ⟨_, rfl⟩, by decide, _, exec_wbuf_of_lt (by decide)⟩, by decide, witness_EveryStepKeepsInvariant.2⟩
theorem witness_ErrorLatchHoldsLegalCode : readyToStep.ErrInv ∧ ∃ t, step readyToStep = .next t :=
  ⟨by decide, witness_EveryStepKeepsInvariant.2⟩
theorem witness_NoStepStopsTheMachine : readyToStep.Inv ∧ (extracted countdown).Inv :=
  ⟨by decide, witness_ErrorsFollowCauseTable_inv.2⟩
theorem witness_CursorFollowsTable : State.reset.CursorInv ∧ (atIteration 24 countdown).CursorInv
    ∧ (atIteration 23 countdown).CursorInv ∧ (atIteration 23 countdown).k.toNat < 24
    ∧ cursorTable[(atIteration 23 countdown).k.toNat]? = some (253, 31, 5) := by decide
theorem witness_GuardReachesNoField :
    ((atIteration 23 countdown).CursorInv ∧ (atIteration 23 countdown).k.toNat < 24)
      ∧ (∀ j : Fin 3, guardedRead countdown ((28#6).toNat + j.val) = guardedRead (countdown.set 31 9#8) ((28#6).toNat + j.val))
      ∧ ∀ (j : Fin 4) (h : (atIteration 23 countdown).byteOffset.toNat + j.val < 33), (0xABCD1F00#32).extractLsb' (8 * j.val) 8
          = (atIteration 23 countdown).buf[(atIteration 23 countdown).byteOffset.toNat + j.val] := by
  decide
theorem witness_IterationStoresStreamField :
    (atIteration 23 countdown).CursorInv ∧ (atIteration 23 countdown).k.toNat < 24 := by decide
theorem witness_RunCompletesExtraction : (withBuf countdown).Inv ∧ (withBuf countdown).k.toNat < 24 := by decide
theorem witness_RunEqualsRepeatedStep : (atIteration 23 countdown).k.toNat < 24 ∧ State.reset.k.toNat < 24 := by decide
theorem witness_ZeroFlagTellsConsumer :
    ((extracted countdown).Inv ∧ (extracted countdown).done = true ∧ (extracted countdown).zf = true)
      ∧ ((extracted (.replicate 33 0xFF#8)).Inv ∧ (extracted (.replicate 33 0xFF#8)).done = true
        ∧ (extracted (.replicate 33 0xFF#8)).zf = false ∧ (extracted (.replicate 33 0xFF#8)).err = 0#3) := by decide +kernel
theorem witness_ValueRangeEndsAreReached :
    (atCursorStart State.reset ∧ atCursorStart (withBuf (.replicate 33 0xFF#8)))
      ∧ State.reset.buf = Vector.replicate 33 0x00#8 ∧ (withBuf (.replicate 33 0xFF#8)).buf = Vector.replicate 33 0xFF#8 :=
  ⟨⟨⟨rfl, rfl, rfl, rfl⟩, rfl, rfl, rfl, rfl⟩, rfl, rfl⟩

/-- Reset with a value left in an invalid element. -/
def withStaleSeed : State := { State.reset with seed := State.reset.seed.set 7 (some 5#11) }

theorem witness_InvalidSeedsReachNothing :
    State.reset.AgreeOnValid withStaleSeed ∧ ∃ t, issue 0x40000000#32 State.reset = .next t :=
  ⟨⟨rfl, by decide⟩, _, exec_step_of_lt (by decide)⟩
theorem witness_InvalidSeedsAreNeverObserved :
    State.reset.AgreeOnValid withStaleSeed ∧ ∃ p, runCommands [0x90000000#32] State.reset = .next p :=
  ⟨⟨rfl, by decide⟩, _, rfl⟩

end Sys2Proof.Tests
end

section
/-!
SUPPORT. One account of what commands and steps can do to the state, and what follows for a property that each single update
keeps.
-/

namespace Sys2Proof.Machine

open Sys2Proof Sys2Proof.Claims

variable {s t : State}

/-! What the loop of `RUN` leaves unchanged -/

@[simp] theorem iterWhile_dig (n : Nat) (s : State) : (iterWhile n s).dig = s.dig :=
  iterWhile_induction (P := fun t => t.dig = s.dig) (fun _ _ h => h) n s rfl

@[simp] theorem iterWhile_buf (n : Nat) (s : State) : (iterWhile n s).buf = s.buf :=
  iterWhile_induction (P := fun t => t.buf = s.buf) (fun _ _ h => h) n s rfl

@[simp] theorem iterWhile_err (n : Nat) (s : State) : (iterWhile n s).err = s.err :=
  iterWhile_induction (P := fun t => t.err = s.err) (fun _ _ h => h) n s rfl

@[simp] theorem iterWhile_dout (n : Nat) (s : State) : (iterWhile n s).dout = s.dout :=
  iterWhile_induction (P := fun t => t.dout = s.dout) (fun _ _ h => h) n s rfl

@[simp] theorem iterWhile_inputs (n : Nat) (s : State) : (iterWhile n s).inputs = s.inputs :=
  iterWhile_induction (P := fun t => t.inputs = s.inputs) (fun _ _ h => h) n s rfl

theorem iter_seed_of_ne {j : Fin 24} (h : j.val ≠ s.k.toNat) : (iter s).seed[j] = s.seed[j] := by
  simp [h.symm]

theorem iter_seed_of_eq {j : Fin 24} (h : j.val = s.k.toNat) :
    (iter s).seed[j] = some (fieldAt s.buf s.byteOffset s.bitShift) := by
  simp [h]

/-- The loop writes only at indices the cursor has yet to reach. -/
theorem iterWhile_seed_of_lt (n : Nat) (s : State) (j : Fin 24) (h : j.val < s.k.toNat) :
    (iterWhile n s).seed[j] = s.seed[j] := by
  refine (iterWhile_induction (P := fun t => s.k.toNat ≤ t.k.toNat ∧ t.seed[j] = s.seed[j]) ?_ n s ⟨Nat.le_refl _, rfl⟩).2
  rintro t lt ⟨hk, hseed⟩
  exact ⟨by rw [iter_k_toNat lt]; omega, by rw [iter_seed_of_ne (by omega), hseed]⟩

/-! The effects of the commands -/

/-- `Effect s i t`: `t` is what command `i` can make of `s`. Every error of a command has the same effect, the latch (R77). -/
inductive Effect (s : State) : Instr → State → Prop where
  | nop : Effect s .nop s
  | error (i : Instr) (c : ErrorCode) : Effect s i (s.latch c)
  | wdig (idx data : Byte) (lt : idx.toNat < 32) : Effect s (.wdig idx data) { s with dig := s.dig.set idx.toNat data lt }
  | wbuf (idx data : Byte) (lt : idx.toNat < 33) :
      Effect s (.wbuf idx data) { s with buf := s.buf.set idx.toNat data lt }.cursorReset
  | asm : Effect s .asm { s with buf := reversedWithChecksum s.dig }.cursorReset
  | step (lt : s.k.toNat < 24) : Effect s .step (iter s)
  | run (lt : s.k.toNat < 24) : Effect s .run (iterWhile 24 s)
  | readback (i : Instr) (hi : readsBack i = true) (v : Word) : Effect s i { s with dout := v }
  | clr : Effect s .clr s.clear

/-- A command that answers a next state had one of the effects. -/
theorem exec_effect {i : Instr} (h : exec i s = .next t) : Effect s i t := by
  cases i
  case nop => rw [exec_nop_next h]; exact .nop
  case wdig idx data =>
    rcases exec_wdig_next h with ⟨lt, rfl⟩ | ⟨_, rfl⟩
    · exact .wdig idx data lt
    · exact .error _ _
  case wbuf idx data =>
    rcases exec_wbuf_next h with ⟨lt, rfl⟩ | ⟨_, rfl⟩
    · exact .wbuf idx data lt
    · exact .error _ _
  case asm => rw [exec_asm_next h]; exact .asm
  case step =>
    rcases exec_step_next h with ⟨lt, rfl⟩ | ⟨_, rfl⟩
    · exact .step lt
    · exact .error _ _
  case run =>
    rcases exec_run_next h with ⟨lt, rfl⟩ | ⟨_, rfl⟩
    · exact .run lt
    · exact .error _ _
  case rseed idx =>
    rcases exec_rseed_next h with ⟨_, v, _, _, rfl⟩ | ⟨_, _, rfl⟩ | ⟨_, rfl⟩
    · exact .readback _ rfl _
    · exact .error _ _
    · exact .error _ _
  case rbuf idx =>
    rcases exec_rbuf_next h with ⟨_, rfl⟩ | ⟨_, rfl⟩
    · exact .readback _ rfl _
    · exact .error _ _
  case rdig idx =>
    rcases exec_rdig_next h with ⟨_, rfl⟩ | ⟨_, rfl⟩
    · exact .readback _ rfl _
    · exact .error _ _
  case rstat => rw [exec_rstat_next h]; exact .readback _ rfl _
  case clr => rw [exec_clr_next h]; exact .clr

/-! Properties that every step keeps -/

/-- `P` holds at reset and each single update that commands and the host's inputs are made of keeps it. -/
structure KeptByUpdates (P : State → Prop) : Prop where
  reset : P State.reset
  inputs : ∀ s l, P s → P { s with inputs := l }
  latch : ∀ s c, P s → P (s.latch c)
  dig : ∀ s d, P s → P { s with dig := d }
  buf : ∀ s b, P s → P { s with buf := b }.cursorReset
  dout : ∀ s v, P s → P { s with dout := v }
  iter : ∀ s, s.k.toNat < 24 → P s → P (iter s)

/-- Every command keeps a property that each single update keeps. -/
theorem KeptByUpdates.exec {P : State → Prop} (hP : KeptByUpdates P) {i : Instr} (hs : P s) (h : exec i s = .next t) : P t := by
  cases exec_effect h with
  | nop => exact hs
  | error _ c => exact hP.latch s c hs
  | wdig idx data lt => exact hP.dig s _ hs
  | wbuf idx data lt => exact hP.buf s _ hs
  | asm => exact hP.buf s _ hs
  | step lt => exact hP.iter s lt hs
  | run lt => exact iterWhile_induction hP.iter 24 s hs
  | readback _ _ v => exact hP.dout s v hs
  | clr => exact hP.inputs State.reset s.inputs hP.reset

/-- Every step keeps a property that each single update keeps. -/
theorem KeptByUpdates.step {P : State → Prop} (hP : KeptByUpdates P) (hs : P s) (h : step s = .next t) : P t :=
  step_induction hP.inputs hP.latch (fun _ _ _ => hP.exec) hP.reset hs h

end Sys2Proof.Machine
end

section
/-!
SUPPORT. The closed form of an iteration's field (R64), and the invariants through every step.
-/

namespace Sys2Proof.Machine

open Sys2Proof Sys2Proof.Claims

variable {s t : State}

/-! The slicer's field is the stream's -/

/-- `S(BUF)` cut off after its first `n` bytes: the sum of `bitstream` stopped at `n`. -/
def bitstreamUpTo (buf : Vector Byte 33) (n : Nat) : BitVec 264 :=
  ((List.finRange 33).take n).foldl
    (fun (acc : BitVec 264) (i : Fin 33) => acc + (buf[i]).setWidth 264 <<< (8 * i.val)) 0#264

theorem bitstreamUpTo_all (buf : Vector Byte 33) : bitstreamUpTo buf 33 = bitstream buf := by
  rw [bitstreamUpTo, List.take_of_length_le (by simp)]; rfl

theorem bitstreamUpTo_succ (buf : Vector Byte 33) (n : Nat) (h : n < 33) :
    bitstreamUpTo buf (n + 1) = bitstreamUpTo buf n + (buf[n]).setWidth 264 <<< (8 * n) := by
  simp [bitstreamUpTo, List.take_add_one, h]

/-- The bytes land at disjoint bits, so adding them up carries nothing. -/
theorem bitstreamUpTo_getLsbD (buf : Vector Byte 33) (n : Nat) (hn : n ≤ 33) (m : Nat) :
    (bitstreamUpTo buf n).getLsbD m = (decide (m < 8 * n) && (guardedRead buf (m / 8)).getLsbD (m % 8)) := by
  induction n generalizing m with
  | zero => simp [bitstreamUpTo]
  | succ n ih =>
    have byte (m : Nat) : ((buf[n]).setWidth 264 <<< (8 * n)).getLsbD m
        = (decide (8 * n ≤ m ∧ m < 8 * (n + 1)) && (guardedRead buf (m / 8)).getLsbD (m % 8)) := by
      rw [BitVec.getLsbD_shiftLeft, BitVec.getLsbD_setWidth]
      rcases Nat.lt_or_ge m (8 * n) with lt | ge
      · simp [lt, Nat.not_le.mpr lt]
      rcases Nat.lt_or_ge m (8 * (n + 1)) with lt | ge'
      · rw [show m / 8 = n by omega, show m % 8 = m - 8 * n by omega, guardedRead_of_lt (by omega)]
        simp [ge, lt, show m < 264 by omega, show m - 8 * n < 264 by omega, Nat.not_lt.mpr ge]
      · rw [BitVec.getLsbD_of_ge buf[n] _ (by omega)]
        simp [Nat.not_lt.mpr ge']
    have disjoint : bitstreamUpTo buf n &&& (buf[n]).setWidth 264 <<< (8 * n) = 0#264 := by
      ext m hm
      simp only [← BitVec.getLsbD_eq_getElem, BitVec.getLsbD_and, ih (by omega), byte, BitVec.getLsbD_zero]
      rcases Nat.lt_or_ge m (8 * n) with lt | ge
      · simp [Nat.not_le.mpr lt]
      · simp [Nat.not_lt.mpr ge]
    rw [bitstreamUpTo_succ buf n hn, BitVec.add_eq_or_of_and_eq_zero _ _ disjoint, BitVec.getLsbD_or, ih (by omega), byte,
      ← Bool.and_or_distrib_right, ← Bool.decide_or]
    congr 2
    simp only [eq_iff_iff]; omega

/-- Bit `m` of the stream is bit `m mod 8` of byte `m / 8` (R35). -/
theorem bitstream_getLsbD (buf : Vector Byte 33) (m : Nat) :
    (bitstream buf).getLsbD m = (guardedRead buf (m / 8)).getLsbD (m % 8) := by
  rw [← bitstreamUpTo_all, bitstreamUpTo_getLsbD buf 33 (Nat.le_refl _)]
  rcases Nat.lt_or_ge m (8 * 33) with lt | ge
  · simp [lt]
  · simp [Nat.not_lt.mpr ge, guardedRead_of_ge (show 33 ≤ m / 8 by omega)]

/-- Under the cursor invariant an iteration's field is bits `11K + 10` down to `11K` of the stream (R64). -/
theorem fieldAt_eq_streamField (h : s.CursorInv) :
    fieldAt s.buf s.byteOffset s.bitShift = streamField s.buf s.k.toNat := by
  obtain ⟨-, hcount, hoffset, hshift⟩ := h
  ext j hj
  simp only [← BitVec.getLsbD_eq_getElem]
  rw [fieldAt_getLsbD _ _ _ _ hj, streamField, BitVec.getLsbD_extractLsb', bitstream_getLsbD, hoffset, hshift, hcount,
    show 11 * s.k.toNat / 8 + (11 * s.k.toNat % 8 + j) / 8 = (11 * s.k.toNat + j) / 8 by omega,
    show (11 * s.k.toNat % 8 + j) % 8 = (11 * s.k.toNat + j) % 8 by omega]
  simp [hj]

/-! The invariants through one iteration -/

theorem iter_cursorInv (h : s.CursorInv) (lt : s.k.toNat < 24) : (iter s).CursorInv := by
  obtain ⟨-, hcount, -, -⟩ := h
  have hcount' : (s.bitCount + 11#9).toNat = 11 * (s.k.toNat + 1) := by
    rw [BitVec.toNat_add, hcount]; simp; omega
  refine ⟨?_, ?_, ?_, ?_⟩
  · rw [iter_k_toNat lt]; omega
  · rw [iter_k_toNat lt]; exact hcount'
  · exact byteOffsetOf_toNat _
  · exact bitShiftOf_toNat _

theorem iter_seedInv (hc : s.CursorInv) (h : s.SeedInv) (lt : s.k.toNat < 24) : (iter s).SeedInv := by
  intro j hj
  rw [iter_k_toNat lt] at hj
  rcases Nat.lt_succ_iff_lt_or_eq.mp hj with hlt | heq
  · rw [iter_seed_of_ne (Nat.ne_of_lt hlt)]; exact h j hlt
  · rw [iter_seed_of_eq heq, fieldAt_eq_streamField hc, heq]; rfl

theorem zfAfter_eq_true_iff (zf : Bool) (v : SeedVal) : zfAfter zf v = true ↔ zf = true ∨ v = 0#11 := by
  simp [zfAfter]

/-- The new valid seed is the one the iteration stored; `ZF` takes in exactly that one (R19). -/
theorem iter_zfInv (h : s.ZfInv) (lt : s.k.toNat < 24) : (iter s).ZfInv := by
  unfold State.ZfInv at h ⊢
  rw [iter_zf, zfAfter_eq_true_iff, h, iter_k_toNat lt]
  constructor
  · rintro (⟨j, hj, hz⟩ | hz)
    · exact ⟨j, by omega, by rw [iter_seed_of_ne (Nat.ne_of_lt hj), hz]⟩
    · exact ⟨⟨s.k.toNat, lt⟩, Nat.lt_succ_self _, by rw [iter_seed_of_eq rfl, hz]⟩
  · rintro ⟨j, hj, hz⟩
    rcases Nat.lt_succ_iff_lt_or_eq.mp hj with hlt | heq
    · exact .inl ⟨j, hlt, by rwa [iter_seed_of_ne (Nat.ne_of_lt hlt)] at hz⟩
    · rw [iter_seed_of_eq heq] at hz; exact .inr (Option.some.inj hz)

theorem iter_inv (h : s.Inv) (lt : s.k.toNat < 24) : (iter s).Inv := by
  obtain ⟨hcursor, herr, hseed, hzf⟩ := h
  exact ⟨iter_cursorInv hcursor lt, herr, iter_seedInv hcursor hseed lt, iter_zfInv hzf lt⟩

/-! The invariants through every step -/

theorem cursorInv_keptByUpdates : KeptByUpdates State.CursorInv where
  reset := .of_zero rfl rfl rfl rfl
  inputs _ _ h := h
  latch _ _ h := h.of_same (by simp) (by simp) (by simp) (by simp)
  dig _ _ h := h
  buf _ _ _ := .of_zero rfl rfl rfl rfl
  dout _ _ h := h
  iter _ lt h := iter_cursorInv h lt

theorem errInv_keptByUpdates : KeptByUpdates State.ErrInv where
  reset := by decide
  inputs _ _ h := h
  latch _ c h := State.ErrInv.latch h c
  dig _ _ h := h
  buf _ _ h := h
  dout _ _ h := h
  iter _ _ h := h

theorem inv_keptByUpdates : KeptByUpdates State.Inv where
  reset := .of_zero rfl rfl rfl rfl rfl (by decide)
  inputs _ _ h := h
  latch _ c h := h.latch c
  dig _ _ h := h
  buf _ _ h := .of_zero rfl rfl rfl rfl rfl h.2.1
  dout _ _ h := h
  iter _ lt h := iter_inv h lt

/-- Settles O35: the invariants survive each single update; for an iteration this is the closed form of R64. -/
theorem everyStepKeepsInvariant : Obligations.EveryStepKeepsInvariant :=
  fun _ _ => inv_keptByUpdates.step

/-- Settles O33: the latch is the only write of `ERR` but a reset, and it writes one of R74's codes. -/
theorem errorLatchHoldsLegalCode : Obligations.ErrorLatchHoldsLegalCode :=
  fun _ _ => errInv_keptByUpdates.step

/-- Settles O34. -/
theorem invariantHoldsAtReset : Obligations.InvariantHoldsAtReset := inv_keptByUpdates.reset

/-- A cursor at its start meets its invariant. -/
theorem cursorInv_of_atCursorStart (h : atCursorStart s) : s.CursorInv := by
  obtain ⟨hk, hcount, hoffset, hshift⟩ := h
  exact .of_zero hk hcount hoffset hshift

theorem atCursorStart_cursorReset (s : State) : atCursorStart s.cursorReset := ⟨rfl, rfl, rfl, rfl⟩

theorem atCursorStart_clear (s : State) : atCursorStart s.clear := ⟨rfl, rfl, rfl, rfl⟩

/-- `ASM`, `CLR` and a `WBUF` in range put the cursor at its start (R18). -/
theorem atCursorStart_of_exec (h : exec .asm s = .next t ∨ exec .clr s = .next t
    ∨ ∃ (idx data : Byte), idx.toNat < 33 ∧ exec (.wbuf idx data) s = .next t) : atCursorStart t := by
  rcases h with h | h | ⟨idx, data, lt, h⟩
  · rw [exec_asm_next h]; exact atCursorStart_cursorReset _
  · rw [exec_clr_next h]; exact atCursorStart_clear s
  · rw [exec_wbuf_of_lt lt] at h
    rw [← Host.Outcome.next.inj h]; exact atCursorStart_cursorReset _

/-- Settles O32: each of the three cursor resets zeroes the registers, and every step keeps their relation. -/
theorem cursorInvariantKept : Obligations.CursorInvariantKept := by
  refine ⟨⟨cursorInv_keptByUpdates.reset, rfl, rfl, rfl, rfl⟩, fun s t h => ?_, fun _ _ => cursorInv_keptByUpdates.step⟩
  have start := atCursorStart_of_exec h
  exact ⟨cursorInv_of_atCursorStart start, start⟩

end Sys2Proof.Machine
end

section
/-!
SUPPORT. The frames of the commands, the error latch, `ZF` and the reset state.
-/

namespace Sys2Proof.Machine

open Sys2Proof Sys2Proof.Claims

variable {s t : State}

/-- Settles O9: on the 32 bits of a word `withFetchWord` puts that very word in front, and the step takes it off again. -/
theorem placedWordRunsNext : Obligations.PlacedWordRunsNext := by
  intro s w i h
  have hw : step (s.withFetchWord 32 w.toNat) = issue (tableWord 32 w.toNat) s := rfl
  rw [hw, tableWord_toNat, issue_of_ok (decodeTableWord_eq_some_iff.mp h)]

/-- Settles O12: the reset values are the model's own, and `STATUS` is a word of zero fields. -/
theorem resetLeavesSpecValues : Obligations.ResetLeavesSpecValues := by
  refine ⟨fun i => ?_, fun i => ?_, fun i => ?_, rfl, rfl, rfl, rfl, rfl, rfl, rfl, by decide, fun s => exec_clr_eq⟩
  · simp
  · simp
  · exact State.seedAt_of_ge (Nat.zero_le i.val)

theorem writesDout_of_readsBack {i : Instr} (h : readsBack i = true) : writesDout i = true := by
  cases i <;> simp_all [readsBack, writesDout]

/-- Settles O25, one case for each effect a command can have. -/
theorem commandsWriteOnlyTheirElements : Obligations.CommandsWriteOnlyTheirElements := by
  intro i s t h
  cases exec_effect h with
  | nop => simp
  | error _ c => by_cases herr : s.err = 0#3 <;> simp [herr]
  | wdig idx data lt =>
    have other (j : Fin 32) (hj : j.val ≠ idx.toNat) : (s.dig.set idx.toNat data lt)[j] = s.dig[j] :=
      Vector.getElem_set_ne lt j.isLt hj.symm
    simpa [writesDig] using other
  | wbuf idx data lt =>
    have other (j : Fin 33) (hj : j.val ≠ idx.toNat) : (s.buf.set idx.toNat data lt)[j] = s.buf[j] :=
      Vector.getElem_set_ne lt j.isLt hj.symm
    simpa [writesBuf, writesCursor] using other
  | asm => simp [writesBuf, writesCursor]
  | step lt =>
    have other (j : Fin 24) (hj : j.val ≠ s.k.toNat) := iter_seed_of_ne hj
    simpa [writesSeed, writesCursor] using other
  | run lt =>
    have other := iterWhile_seed_of_lt 24 s
    simpa [writesSeed, writesCursor] using other
  | readback _ hi v => simp [writesDout_of_readsBack hi]
  | clr => simp [writesDig, writesBuf, writesSeed, writesCursor, writesDout]

/-- R49: the last row is the only one of `CLR`, and its mask takes in every bit. -/
theorem opcodeMap_clr : ∀ row ∈ opcodeMap, ∀ idx data, row.build idx data = .clr →
    row.pattern = 0xA0000000#32 ∧ row.mask = 0xFFFFFFFF#32 := by
  simp [opcodeMap]

/-- `CLR` has one word (R72). -/
theorem eq_of_decode_clr {w : Word} (h : decode w = .ok .clr) : w = 0xA0000000#32 := by
  obtain ⟨row, hrow, hw, hi⟩ := decode_eq_ok_iff.mp h
  obtain ⟨hpattern, hmask⟩ := opcodeMap_clr row (List.mem_of_getElem? hrow) _ _ hi.symm
  have all : w &&& 0xFFFFFFFF#32 = w := BitVec.and_allOnes
  rwa [hmask, hpattern, all] at hw

/-- A latched error is as before after every command but `CLR` (R76, R80). -/
theorem exec_err_of_latched {i : Instr} (herr : s.err ≠ 0#3) (h : exec i s = .next t) :
    t.err = s.err ∨ (i = .clr ∧ t.err = 0#3) := by
  cases exec_effect h with
  | error _ c => rw [State.latch_of_err_ne_zero herr]; exact .inl rfl
  | run => exact .inl (iterWhile_err 24 s)
  | clr => exact .inr ⟨rfl, rfl⟩
  | nop | readback | wdig => exact .inl rfl
  | step => exact .inl (iter_err s)
  | wbuf | asm => exact .inl (State.cursorReset_err _)

/-- Settles O27: a word is `CLR`'s, another command's, or raises a decode error, which the latch then ignores. -/
theorem latchedErrorStaysUntilClear : Obligations.LatchedErrorStaysUntilClear := by
  refine ⟨fun w s t herr h => ?_, fun s t h => ?_⟩
  · rcases issue_cases h with ⟨i, hd, h⟩ | ⟨c, _, rfl⟩
    · rcases exec_err_of_latched herr h with same | ⟨rfl, zero⟩
      · exact .inl same
      · exact .inr ⟨eq_of_decode_clr hd, zero⟩
    · rw [State.latch_of_err_ne_zero herr]; exact .inl rfl
  · rw [← Host.Outcome.next.inj h]; rfl

/-! `ZF` -/

theorem iterWhile_zf_of_true (n : Nat) (h : s.zf = true) : (iterWhile n s).zf = true :=
  iterWhile_induction (P := fun t => t.zf = true) (fun _ _ h => zfAfter_eq_true_iff _ _ |>.mpr (.inl h)) n s h

/-- From `s` to `t` iterations ran, and if they set `ZF` one of them stored a 0, at an index from the old `K` to below the new. -/
def ZeroStoredSince (s t : State) : Prop :=
  s.k.toNat ≤ t.k.toNat
    ∧ (t.zf = true → s.zf = true ∨ ∃ j : Fin 24, s.k.toNat ≤ j.val ∧ j.val < t.k.toNat ∧ t.seed[j] = some 0#11)

theorem ZeroStoredSince.refl (s : State) : ZeroStoredSince s s := ⟨Nat.le_refl _, .inl⟩

theorem ZeroStoredSince.iter (lt : t.k.toNat < 24) (h : ZeroStoredSince s t) : ZeroStoredSince s (iter t) := by
  obtain ⟨hk, hz⟩ := h
  refine ⟨by rw [iter_k_toNat lt]; omega, fun hzf => ?_⟩
  rw [iter_k_toNat lt]
  rw [iter_zf, zfAfter_eq_true_iff] at hzf
  rcases hzf with hzf | hv
  · refine (hz hzf).imp_right fun ⟨j, hge, hlt, hj⟩ => ⟨j, hge, by omega, ?_⟩
    rw [iter_seed_of_ne (Nat.ne_of_lt hlt), hj]
  · exact .inr ⟨⟨t.k.toNat, lt⟩, hk, Nat.lt_succ_self _, by rw [iter_seed_of_eq rfl, hv]⟩

theorem ZeroStoredSince.iterWhile (n : Nat) (s : State) : ZeroStoredSince s (iterWhile n s) :=
  iterWhile_induction (P := ZeroStoredSince s) (fun _ lt h => h.iter lt) n s (.refl s)

theorem ZeroStoredSince.exists_zero (h : ZeroStoredSince s t) (hs : s.zf = false) (ht : t.zf = true) :
    ∃ j : Fin 24, s.k.toNat ≤ j.val ∧ j.val < t.k.toNat ∧ t.seed[j] = some 0#11 :=
  (h.2 ht).resolve_left (by simp [hs])

/-- A command that clears `ZF` is one that resets the cursor (R19). -/
theorem exec_clears_zf {i : Instr} (h : exec i s = .next t) (hs : s.zf = true) (ht : t.zf = false) :
    i = .asm ∨ i = .clr ∨ ∃ idx data, i = .wbuf idx data := by
  cases exec_effect h with
  | asm => exact .inl rfl
  | clr => exact .inr (.inl rfl)
  | wbuf idx data => exact .inr (.inr ⟨idx, data, rfl⟩)
  | step => simp [zfAfter, hs] at ht
  | run => simp [iterWhile_zf_of_true 24 hs] at ht
  | nop | error | wdig | readback => simp [hs] at ht

/-- A command that sets `ZF` ran iterations, one of which stored a 0 (R19). -/
theorem exec_sets_zf {i : Instr} (h : exec i s = .next t) (hs : s.zf = false) (ht : t.zf = true) :
    (i = .step ∨ i = .run) ∧ ∃ j : Fin 24, s.k.toNat ≤ j.val ∧ j.val < t.k.toNat ∧ t.seed[j] = some 0#11 := by
  cases exec_effect h with
  | step lt => exact ⟨.inl rfl, ((ZeroStoredSince.refl s).iter lt).exists_zero hs ht⟩
  | run lt => exact ⟨.inr rfl, (ZeroStoredSince.iterWhile 24 s).exists_zero hs ht⟩
  | wbuf | asm | clr => simp at ht
  | nop | error | wdig | readback => simp [hs] at ht

/-- Settles O29. -/
theorem zeroFlagIsSticky : Obligations.ZeroFlagIsSticky :=
  fun _ _ _ h => ⟨exec_clears_zf h, exec_sets_zf h⟩

theorem done_iff : s.done = true ↔ s.k = 24#5 := by simp [State.done]

/-- At `K = 24` the cursor invariant fixes the cursor registers (R62, last row). -/
theorem State.CursorInv.at_end (h : s.CursorInv) (hk : s.k = 24#5) :
    s.bitCount = 264#9 ∧ s.byteOffset = 33#6 ∧ s.bitShift = 0#3 := by
  obtain ⟨-, hcount, hoffset, hshift⟩ := h
  rw [hk] at hcount
  rw [hcount] at hoffset hshift
  exact ⟨BitVec.eq_of_toNat_eq hcount, BitVec.eq_of_toNat_eq hoffset, BitVec.eq_of_toNat_eq hshift⟩

/-- Settles O44: with `K = 24` every seed is valid, so the zero-flag invariant speaks of all 24, and every field of the status
word is fixed. -/
theorem zeroFlagTellsConsumer : Obligations.ZeroFlagTellsConsumer := by
  rintro s ⟨hcursor, -, hseed, hzf⟩ hdone
  have hk := done_iff.mp hdone
  have valid (j : Fin 24) : j.val < s.k.toNat := by rw [hk]; exact j.isLt
  refine ⟨fun hz j => ?_, fun hz => ?_, fun hz herr => ?_⟩
  · refine ⟨streamField s.buf j, by rw [State.seedAt_of_lt (valid j), hseed j (valid j)], ?_, by omega⟩
    have ne : streamField s.buf j ≠ 0#11 := fun h0 => by
      rw [hzf.mpr ⟨j, valid j, by rw [hseed j (valid j), h0]⟩] at hz; cases hz
    exact Nat.pos_of_ne_zero fun h0 => ne (BitVec.eq_of_toNat_eq h0)
  · obtain ⟨j, hj, h0⟩ := hzf.mp hz
    exact ⟨j, by rw [State.seedAt_of_lt hj, h0]⟩
  · obtain ⟨hcount, hoffset, hshift⟩ := hcursor.at_end hk
    rw [State.status, hcount, hoffset, hshift, herr, hz, hdone, hk]; decide

end Sys2Proof.Machine
end

section
/-!
SUPPORT. Two states that differ at most in the contents of invalid seeds, through every command and every run (R97).
-/

namespace Sys2Proof.Machine

open Sys2Proof Sys2Proof.Claims

variable {s s' t : State}

/-- The other state is the one with new seed contents, the same below `K`. -/
theorem State.agreeOnValid_iff : s.AgreeOnValid s' ↔
    ∃ seed, s' = { s with seed := seed } ∧ ∀ j : Fin 24, j.val < s.k.toNat → seed[j] = s.seed[j] := by
  constructor
  · rintro ⟨heq, hseed⟩
    have hk : s.k = s'.k := by rw [← heq]
    refine ⟨s'.seed, by rw [← heq], fun j hj => ?_⟩
    have := hseed j
    rw [State.seedAt_of_lt hj, State.seedAt_of_lt (hk ▸ hj)] at this
    exact this.symm
  · rintro ⟨seed, rfl, hseed⟩
    refine ⟨rfl, fun j => ?_⟩
    rcases Nat.lt_or_ge j.val s.k.toNat with lt | ge
    · rw [State.seedAt_of_lt lt, State.seedAt_of_lt (s := { s with seed := seed }) lt]; exact (hseed j lt).symm
    · rw [State.seedAt_of_ge ge, State.seedAt_of_ge (s := { s with seed := seed }) ge]

namespace State.AgreeOnValid

theorem refl (s : State) : s.AgreeOnValid s := ⟨rfl, fun _ => rfl⟩

theorem dig_eq (h : s.AgreeOnValid s') : s'.dig = s.dig := by rw [← h.1]
theorem buf_eq (h : s.AgreeOnValid s') : s'.buf = s.buf := by rw [← h.1]
theorem k_eq (h : s.AgreeOnValid s') : s'.k = s.k := by rw [← h.1]
theorem dout_eq (h : s.AgreeOnValid s') : s'.dout = s.dout := by rw [← h.1]
theorem inputs_eq (h : s.AgreeOnValid s') : s'.inputs = s.inputs := by rw [← h.1]
theorem status_eq (h : s.AgreeOnValid s') : s'.status = s.status := by rw [← h.1]; rfl

theorem clear_eq (h : s.AgreeOnValid s') : s'.clear = s.clear := by rw [State.clear, State.clear, h.inputs_eq]

theorem seed_eq (h : s.AgreeOnValid s') {j : Fin 24} (hj : j.val < s.k.toNat) : s'.seed[j] = s.seed[j] := by
  obtain ⟨seed, rfl, hseed⟩ := State.agreeOnValid_iff.mp h
  exact hseed j hj

/-! The updates of a command keep the agreement -/

theorem latch (h : s.AgreeOnValid s') (c : ErrorCode) : (s.latch c).AgreeOnValid (s'.latch c) := by
  obtain ⟨seed, rfl, hseed⟩ := State.agreeOnValid_iff.mp h
  refine State.agreeOnValid_iff.mpr ⟨seed, by simp [State.latch_eq], by simpa using hseed⟩

theorem setDig (h : s.AgreeOnValid s') {d d' : Vector Byte 32} (hd : d' = d) :
    ({ s with dig := d } : State).AgreeOnValid { s' with dig := d' } := by
  obtain ⟨seed, rfl, hseed⟩ := State.agreeOnValid_iff.mp h
  exact State.agreeOnValid_iff.mpr ⟨seed, by rw [hd], hseed⟩

theorem answer (h : s.AgreeOnValid s') {n : Nat} {v v' : BitVec n} (hv : v' = v) : (s.answer v).AgreeOnValid (s'.answer v') := by
  obtain ⟨seed, rfl, hseed⟩ := State.agreeOnValid_iff.mp h
  exact State.agreeOnValid_iff.mpr ⟨seed, by rw [hv]; rfl, hseed⟩

/-- After a cursor reset no seed is valid. -/
theorem loadBuf (h : s.AgreeOnValid s') {b b' : Vector Byte 33} (hb : b' = b) :
    ({ s with buf := b } : State).cursorReset.AgreeOnValid { s' with buf := b' }.cursorReset := by
  obtain ⟨seed, rfl, -⟩ := State.agreeOnValid_iff.mp h
  exact State.agreeOnValid_iff.mpr ⟨seed, by rw [hb]; rfl, fun j hj => absurd hj (Nat.not_lt_zero _)⟩

/-- The one seed that becomes valid is the one both iterations write. -/
theorem iter (h : s.AgreeOnValid s') (lt : s.k.toNat < 24) : (iter s).AgreeOnValid (iter s') := by
  have same : Machine.iter s' = { Machine.iter s with seed := (Machine.iter s').seed } := by rw [← h.1]; rfl
  have field : fieldAt s'.buf s'.byteOffset s'.bitShift = fieldAt s.buf s.byteOffset s.bitShift := by rw [← h.1]
  refine State.agreeOnValid_iff.mpr ⟨_, same, fun j hj => ?_⟩
  rw [iter_k_toNat lt] at hj
  rcases Nat.lt_succ_iff_lt_or_eq.mp hj with hlt | heq
  · have ne := Nat.ne_of_lt hlt
    rw [iter_seed_of_ne ne, iter_seed_of_ne (by rwa [h.k_eq]), h.seed_eq hlt]
  · rw [iter_seed_of_eq heq, iter_seed_of_eq (by rwa [h.k_eq]), field]

theorem iterWhile (h : s.AgreeOnValid s') (n : Nat) : (iterWhile n s).AgreeOnValid (iterWhile n s') := by
  induction n generalizing s s' with
  | zero => exact h
  | succ n ih =>
    simp only [Machine.iterWhile, h.k_eq]
    split
    · next lt => exact ih (h.iter ((k_lt_24_iff s.k).mp lt))
    · exact h

/-- A command has the same effect from both states but for invalid seeds. -/
theorem exec {i : Instr} (hs : s.AgreeOnValid s') (h : exec i s = .next t) :
    ∃ t', exec i s' = .next t' ∧ t.AgreeOnValid t' := by
  cases i
  case nop => rw [exec_nop_next h]; exact ⟨s', rfl, hs⟩
  case wdig idx data =>
    rcases exec_wdig_next h with ⟨lt, rfl⟩ | ⟨ge, rfl⟩
    · exact ⟨_, exec_wdig_of_lt lt, hs.setDig (by rw [hs.dig_eq])⟩
    · exact ⟨_, exec_wdig_of_ge ge, hs.latch _⟩
  case wbuf idx data =>
    rcases exec_wbuf_next h with ⟨lt, rfl⟩ | ⟨ge, rfl⟩
    · exact ⟨_, exec_wbuf_of_lt lt, hs.loadBuf (by rw [hs.buf_eq])⟩
    · exact ⟨_, exec_wbuf_of_ge ge, hs.latch _⟩
  case asm => rw [exec_asm_next h]; exact ⟨_, exec_asm_eq, hs.loadBuf (by rw [hs.dig_eq])⟩
  case step =>
    rcases exec_step_next h with ⟨lt, rfl⟩ | ⟨eq, rfl⟩
    · exact ⟨_, exec_step_of_lt (hs.k_eq ▸ lt), hs.iter lt⟩
    · exact ⟨_, exec_step_of_eq (hs.k_eq ▸ eq), hs.latch _⟩
  case run =>
    rcases exec_run_next h with ⟨lt, rfl⟩ | ⟨eq, rfl⟩
    · exact ⟨_, exec_run_of_lt (hs.k_eq ▸ lt), hs.iterWhile 24⟩
    · exact ⟨_, exec_run_of_eq (hs.k_eq ▸ eq), hs.latch _⟩
  case rseed idx =>
    rcases exec_rseed_next h with ⟨lt, v, hk, hv, rfl⟩ | ⟨lt, hk, rfl⟩ | ⟨ge, rfl⟩
    · have hv' : s'.seed[idx.toNat] = some v := (hs.seed_eq (j := ⟨idx.toNat, lt⟩) hk).trans hv
      exact ⟨_, execRseed_of_valid lt (hs.k_eq ▸ hk) hv', hs.answer rfl⟩
    · exact ⟨_, execRseed_of_invalid lt (hs.k_eq ▸ hk), hs.latch _⟩
    · exact ⟨_, exec_rseed_of_ge ge, hs.latch _⟩
  case rbuf idx =>
    rcases exec_rbuf_next h with ⟨lt, rfl⟩ | ⟨ge, rfl⟩
    · exact ⟨_, exec_rbuf_of_lt lt, hs.answer (by simp only [hs.buf_eq])⟩
    · exact ⟨_, exec_rbuf_of_ge ge, hs.latch _⟩
  case rdig idx =>
    rcases exec_rdig_next h with ⟨lt, rfl⟩ | ⟨ge, rfl⟩
    · exact ⟨_, exec_rdig_of_lt lt, hs.answer (by simp only [hs.dig_eq])⟩
    · exact ⟨_, exec_rdig_of_ge ge, hs.latch _⟩
  case rstat => rw [exec_rstat_next h]; exact ⟨_, exec_rstat_eq, hs.answer hs.status_eq⟩
  case clr => rw [exec_clr_next h, exec_clr_eq, hs.clear_eq]; exact ⟨_, rfl, .refl _⟩

end State.AgreeOnValid

/-- Settles O46: which error a word raises is decided by fields the two states share, and so is every value it writes to a valid
element. -/
theorem invalidSeedsReachNothing : Obligations.InvalidSeedsReachNothing := by
  intro w s s' t hs h
  rcases issue_cases h with ⟨i, hd, h⟩ | ⟨c, hd, rfl⟩
  · rw [issue_of_ok hd]; exact hs.exec h
  · exact ⟨_, issue_of_error hd s', hs.latch c⟩

/-! A run of one word more: that word's step, then the run, with `DOUT` put in front after a readback (R96) -/

theorem runCommands_cons {w : Word} {ws later : List Word} (hw : issue w s = .next s')
    (hrun : runCommands ws s' = .next (later, t)) :
    runCommands (w :: ws) s = .next (if isReadback w then s'.dout :: later else later, t) := by
  simp only [runCommands, hw, hrun]

theorem runCommands_cons_next {w : Word} {ws douts : List Word} (h : runCommands (w :: ws) s = .next (douts, t)) :
    ∃ (u : State) (later : List Word), issue w s = .next u ∧ runCommands ws u = .next (later, t)
      ∧ douts = if isReadback w then u.dout :: later else later := by
  rw [runCommands] at h
  split at h
  · next u hw =>
    split at h
    · next later v hrun =>
      obtain ⟨hdouts, rfl⟩ := Prod.mk.inj (Host.Outcome.next.inj h)
      exact ⟨u, later, hw, hrun, hdouts.symm⟩
    · cases h
    · cases h
  · cases h
  · cases h

/-- Settles O47, by induction on the words: `DOUT` is a field the two states share. -/
theorem invalidSeedsAreNeverObserved : Obligations.InvalidSeedsAreNeverObserved := by
  intro words
  induction words with
  | nil =>
    intro s s' t douts hs h
    obtain ⟨rfl, rfl⟩ := Prod.mk.inj (Host.Outcome.next.inj h)
    exact ⟨s', rfl, hs⟩
  | cons w ws ih =>
    intro s s' t douts hs h
    obtain ⟨u, later, hw, hrun, rfl⟩ := runCommands_cons_next h
    obtain ⟨u', hw', hu⟩ := invalidSeedsReachNothing w s s' u hs hw
    obtain ⟨t', hrun', ht⟩ := ih u u' t later hu hrun
    exact ⟨t', by rw [runCommands_cons hw' hrun', hu.dout_eq], ht⟩

end Sys2Proof.Machine
end

section
/-!
SUPPORT. The order of the pending inputs (R40), and what a readback, a load or `ASM` does when it is repeated (R41).
-/

namespace Sys2Proof.Machine

open Sys2Proof Sys2Proof.Claims

variable {s t : State}

/-! A step takes the oldest pending input -/

theorem step_of_inputs {x : HostInput} {rest : List HostInput} (h : s.inputs = x :: rest) :
    step s = accept x { s with inputs := rest } := by
  simp only [step, acceptNext, h]

/-- The latch is the effect of `raise` that the statements write out (R76). -/
theorem latch_eq_afterError (s : State) (c : ErrorCode) : s.latch c = afterError (errorBits c) s := rfl

/-- Settles O6: the two decode errors latch their codes of R74. -/
theorem stepRunsDecodedCommand : Obligations.StepRunsDecodedCommand := by
  intro s w rest hs
  have taken : step s = issue w { s with inputs := rest } := step_of_inputs hs
  refine ⟨fun i hd => ?_, fun hd => ?_, fun hd => ?_⟩
  · rw [taken, issue_of_ok hd]
  · rw [taken, issue_of_error hd, latch_eq_afterError]; rfl
  · rw [taken, issue_of_error hd, latch_eq_afterError]; rfl

/-! What an input does with the inputs behind it: nothing -/

theorem exec_inputs {i : Instr} (h : exec i s = .next t) : t.inputs = s.inputs :=
  (commandsWriteOnlyTheirElements i s t h).1

theorem issue_inputs {w : Word} (h : issue w s = .next t) : t.inputs = s.inputs := by
  rcases issue_cases h with ⟨i, _, h⟩ | ⟨c, _, rfl⟩
  · exact exec_inputs h
  · exact State.latch_inputs s c

theorem issue_withInputs {w : Word} (l : List HostInput) (h : issue w s = .next t) :
    issue w { s with inputs := l } = .next { t with inputs := l } := by
  rcases issue_cases h with ⟨i, hd, h⟩ | ⟨c, hd, rfl⟩
  · rw [issue_of_ok hd, exec_withInputs i s t l h]
  · rw [issue_of_error hd, latch_withInputs]

theorem accept_inputs {x : HostInput} (h : accept x s = .next t) : t.inputs = s.inputs := by
  cases x with
  | command w => exact issue_inputs h
  | rst => rw [← Host.Outcome.next.inj h]; rfl

theorem accept_withInputs {x : HostInput} (l : List HostInput) (h : accept x s = .next t) :
    accept x { s with inputs := l } = .next { t with inputs := l } := by
  cases x with
  | command w => exact issue_withInputs l h
  | rst => rw [← Host.Outcome.next.inj h]; rfl

/-- Settles O10: the step takes the same oldest input in both states, and that input leaves those behind it as they are. -/
theorem laterInputsDoNotReachEarlierStep : Obligations.LaterInputsDoNotReachEarlierStep := by
  intro s t later pending h
  obtain ⟨x, rest, hs⟩ := List.exists_cons_of_ne_nil pending
  rw [step_of_inputs hs] at h
  have behind : t.inputs = rest := accept_inputs h
  have taken : step { s with inputs := s.inputs ++ later } = accept x { s with inputs := rest ++ later } :=
    step_of_inputs (by rw [hs]; rfl)
  rw [taken, behind]
  exact accept_withInputs (s := { s with inputs := rest }) (rest ++ later) h

/-! Repeating a command -/

/-- An error raised again changes nothing: the first is kept (R76). -/
@[simp] theorem State.latch_latch (s : State) (c d : ErrorCode) : (s.latch c).latch d = s.latch c :=
  State.latch_of_err_ne_zero (s.latch_err_ne_zero c) d

/-- The status word does not show `DOUT` (R26). -/
@[simp] theorem State.answer_status {n : Nat} (s : State) (v : BitVec n) : (s.answer v).status = s.status := rfl

@[simp] theorem State.answer_answer {n : Nat} (s : State) (v : BitVec n) : (s.answer v).answer v = s.answer v := rfl

/-- Of two loads of `BUF` in a row the second decides (R58). -/
theorem State.loadBuf_loadBuf (s : State) (b b' : Vector Byte 33) :
    { ({ s with buf := b } : State).cursorReset with buf := b' }.cursorReset = { s with buf := b' }.cursorReset := rfl

/-- A readback wrote `DOUT`, or raised an error (R41). -/
theorem exec_readback_frame {i : Instr} (hi : isRead i = true) (h : exec i s = .next t) :
    { t with dout := s.dout, err := s.err } = s := by
  cases exec_effect h with
  | readback _ _ v => rfl
  | error _ c => rw [State.latch_eq]
  | nop | wdig | wbuf | asm | step | run | clr => cases hi

theorem exec_repeat_readback {i : Instr} (hi : isRead i = true) (h : exec i s = .next t) : exec i t = .next t := by
  cases i with
  | rseed idx =>
    rcases exec_rseed_next h with ⟨lt, v, hk, hv, rfl⟩ | ⟨lt, hk, rfl⟩ | ⟨ge, rfl⟩
    · exact execRseed_of_valid lt hk hv
    · have again : exec (.rseed idx) (s.latch .notReady) = .next ((s.latch .notReady).latch .notReady) :=
        execRseed_of_invalid lt (by rwa [State.latch_k])
      rw [again, State.latch_latch]
    · rw [exec_rseed_of_ge ge, State.latch_latch]
  | rbuf idx =>
    rcases exec_rbuf_next h with ⟨lt, rfl⟩ | ⟨ge, rfl⟩
    · exact exec_rbuf_of_lt lt
    · rw [exec_rbuf_of_ge ge, State.latch_latch]
  | rdig idx =>
    rcases exec_rdig_next h with ⟨lt, rfl⟩ | ⟨ge, rfl⟩
    · exact exec_rdig_of_lt lt
    · rw [exec_rdig_of_ge ge, State.latch_latch]
  | rstat => rw [exec_rstat_next h, exec_rstat_eq, State.answer_status, State.answer_answer]
  | nop | wdig | wbuf | asm | step | run | clr => cases hi

theorem exec_repeat_load {i : Instr} (hi : isLoad i = true) (h : exec i s = .next t) : exec i t = .next t := by
  cases i with
  | wdig idx data =>
    rcases exec_wdig_next h with ⟨lt, rfl⟩ | ⟨ge, rfl⟩
    · rw [exec_wdig_of_lt lt, Vector.set_set]
    · rw [exec_wdig_of_ge ge, State.latch_latch]
  | wbuf idx data =>
    rcases exec_wbuf_next h with ⟨lt, rfl⟩ | ⟨ge, rfl⟩
    · rw [exec_wbuf_of_lt lt, State.loadBuf_loadBuf, State.cursorReset_buf, Vector.set_set]
    · rw [exec_wbuf_of_ge ge, State.latch_latch]
  | asm => rw [exec_asm_next h, exec_asm_eq, State.loadBuf_loadBuf, State.cursorReset_dig]
  | nop | step | run | rseed | rbuf | rdig | rstat | clr => cases hi

/-- `STEP` and `RUN` advance the cursor, so neither is idempotent (R41). -/
theorem exec_extraction_advances (lt : s.k.toNat < 24) (h : exec .step s = .next t ∨ exec .run s = .next t) :
    s.k.toNat < t.k.toNat := by
  rcases h with h | h
  · rw [exec_step_of_lt lt] at h
    rw [← Host.Outcome.next.inj h, iter_k_toNat lt]; exact Nat.lt_succ_self _
  · rw [exec_run_of_lt lt] at h
    rwa [← Host.Outcome.next.inj h, iterWhile_k_toNat 24 s (Nat.le_of_lt lt) (Nat.le_add_left _ _)]

/-- Settles O30: a readback repeated reads the same element, a load repeated writes the same one, and an error repeated is not
latched again. -/
theorem readsAndLoadsAreIdempotent : Obligations.ReadsAndLoadsAreIdempotent :=
  ⟨fun _ _ _ hi h => ⟨exec_readback_frame hi h, exec_repeat_readback hi h⟩,
    fun _ _ _ => exec_repeat_load,
    fun _ _ => exec_extraction_advances⟩

end Sys2Proof.Machine
end

section
/-!
SUPPORT. Where the slicer reads: the table of the cursor (R62), the reach of the guard (R65), the value of the stream (R35) and
what an iteration stores (R64).
-/

namespace Sys2Proof.Machine

open Sys2Proof Sys2Proof.Claims

variable {s : State}

/-! The cursor's row, and the last byte it reads -/

/-- Row `k` of the table of R62 is the cursor after `k` advances of 11 bits. -/
theorem cursorTable_getElem? : ∀ k ≤ 24, cursorTable[k]? = some (11 * k, 11 * k / 8, 11 * k % 8) := by decide

theorem State.CursorInv.cursorOf_eq (h : s.CursorInv) :
    cursorOf s = (11 * s.k.toNat, 11 * s.k.toNat / 8, 11 * s.k.toNat % 8) := by
  obtain ⟨-, hcount, hoffset, hshift⟩ := h
  rw [cursorOf, hoffset, hshift, hcount]

theorem State.CursorInv.in_table (h : s.CursorInv) : cursorTable[s.k.toNat]? = some (cursorOf s) := by
  rw [h.cursorOf_eq, cursorTable_getElem? _ h.1]

/-- The last of an iteration's four reads (R34, R65). -/
theorem State.CursorInv.last_read (h : s.CursorInv) (lt : s.k.toNat < 24) :
    s.byteOffset.toNat + 3 ≤ 34
      ∧ (33 ≤ s.byteOffset.toNat + 3 ↔ s.k.toNat = 22 ∨ s.k.toNat = 23)
      ∧ (34 ≤ s.byteOffset.toNat + 3 ↔ s.k.toNat = 23) := by
  obtain ⟨-, hcount, hoffset, -⟩ := h
  omega

/-! The field an iteration stores -/

theorem iter_seed_getElem? (lt : s.k.toNat < 24) :
    (iter s).seed[s.k.toNat]? = some (some (fieldAt s.buf s.byteOffset s.bitShift)) := by
  simp [lt]

/-- The mask of R59 keeps the 11 bits that the seed holds. -/
theorem fieldAt_eq_extractLsb' (buf : Vector Byte 33) (o : BitVec 6) (shift : BitVec 3) :
    fieldAt buf o shift = (leWord buf o.toNat >>> shift.toNat).extractLsb' 0 11 := by
  apply BitVec.eq_of_toNat_eq
  rw [fieldAt_toNat]
  simp [BitVec.extractLsb'_toNat, Nat.shiftRight_eq_div_pow]

/-- Settles O37: the invariant fixes the row, and an iteration keeps the invariant with `K` one higher. -/
theorem cursorFollowsTable : Obligations.CursorFollowsTable := by
  intro s h
  refine ⟨h.in_table, fun row lt hrow => ?_⟩
  obtain rfl : cursorOf s = row := Option.some.inj (h.in_table.symm.trans hrow)
  refine ⟨⟨iter s, exec_step_of_lt lt, iter_k_toNat lt, ?_, ?_⟩, (h.last_read lt).2⟩
  · rw [← iter_k_toNat lt]; exact (iter_cursorInv h lt).in_table
  · rw [iter_seed_getElem? lt, fieldAt_eq_extractLsb']; rfl

/-- Settles O40: the field that the iteration slices is the stream's. -/
theorem iterationStoresStreamField : Obligations.IterationStoresStreamField := by
  intro s h lt
  refine ⟨iter s, streamField s.buf s.k.toNat, exec_step_of_lt lt, ?_, rfl, ?_⟩
  · rw [iter_seed_getElem? lt, fieldAt_eq_streamField h]
  · rw [streamField, BitVec.extractLsb'_toNat, Nat.shiftRight_eq_div_pow]

/-! The bytes that do not reach the field -/

/-- A field spans at most 18 bits from its first byte's lowest bit, so the fourth byte is not among them (R65). -/
theorem fieldAt_congr {buf buf' : Vector Byte 33} {o : BitVec 6} {shift : BitVec 3}
    (same : ∀ j : Fin 3, guardedRead buf (o.toNat + j.val) = guardedRead buf' (o.toNat + j.val)) :
    fieldAt buf o shift = fieldAt buf' o shift := by
  apply BitVec.eq_of_getLsbD_eq
  intro j hj
  have third : (shift.toNat + j) / 8 < 3 := by omega
  rw [fieldAt_getLsbD _ _ _ _ hj, fieldAt_getLsbD _ _ _ _ hj, same ⟨_, third⟩]

/-- Under the cursor invariant every bit of a field is a bit of a byte that the buffer has, so a word may hold anything at the
guard's bytes (R65). -/
theorem fieldAt_eq_of_word {w : Word} (h : s.CursorInv) (lt : s.k.toNat < 24)
    (hw : ∀ (j : Fin 4) (h : s.byteOffset.toNat + j.val < 33),
      w.extractLsb' (8 * j.val) 8 = s.buf[s.byteOffset.toNat + j.val]) :
    fieldAt s.buf s.byteOffset s.bitShift = (w >>> s.bitShift.toNat).extractLsb' 0 11 := by
  obtain ⟨-, hcount, hoffset, hshift⟩ := h
  apply BitVec.eq_of_getLsbD_eq
  intro j hj
  have fourth : (s.bitShift.toNat + j) / 8 < 4 := by omega
  have inRange : s.byteOffset.toNat + (s.bitShift.toNat + j) / 8 < 33 := by omega
  rw [fieldAt_getLsbD _ _ _ _ hj, guardedRead_of_lt inRange, ← hw ⟨_, fourth⟩ inRange]
  simp only [BitVec.getLsbD_extractLsb', BitVec.getLsbD_ushiftRight, Nat.div_add_mod, Nat.zero_add, hj,
    Nat.mod_lt _ (show 0 < 8 by decide)]

/-- Settles O38: a field is read bit by bit, each from a byte that counts. -/
theorem guardReachesNoField : Obligations.GuardReachesNoField :=
  ⟨fun _ h lt => h.last_read lt, fun _ _ _ _ => fieldAt_congr, fun _ _ h lt => fieldAt_eq_of_word h lt⟩

/-! The stream as a number -/

/-- The first `n` bytes of the stream fill `8 n` bits. -/
theorem bitstreamUpTo_lt (buf : Vector Byte 33) (n : Nat) (hn : n ≤ 33) : (bitstreamUpTo buf n).toNat < 2 ^ (8 * n) := by
  apply Nat.lt_pow_two_of_testBit
  intro m hm
  rw [BitVec.testBit_toNat, bitstreamUpTo_getLsbD buf n hn]
  simp [Nat.not_lt.mpr hm]

/-- A width that has room for a byte at its weight has room for all the bytes below it too. -/
theorem byteRange_mul_weight_le {n width : Nat} (room : 8 + 8 * n ≤ width) : 2 ^ 8 * 2 ^ (8 * n) ≤ 2 ^ width := by
  rw [← Nat.pow_add]; exact Nat.pow_le_pow_right (by decide) room

theorem byte_shiftLeft_toNat (b : Byte) {n width : Nat} (room : 8 + 8 * n ≤ width) :
    (b.setWidth width <<< (8 * n)).toNat = b.toNat * 2 ^ (8 * n) := by
  have fits : b.toNat * 2 ^ (8 * n) < 2 ^ width :=
    Nat.lt_of_lt_of_le (Nat.mul_lt_mul_of_pos_right b.isLt (Nat.two_pow_pos _)) (byteRange_mul_weight_le room)
  rw [BitVec.toNat_shiftLeft, BitVec.toNat_setWidth_of_le (by omega), Nat.shiftLeft_eq, Nat.mod_eq_of_lt fits]

/-- Adding the next byte in its place does not wrap. -/
theorem add_byte_shiftLeft_toNat {n width : Nat} (x : BitVec width) (b : Byte) (below : x.toNat < 2 ^ (8 * n))
    (room : 8 + 8 * n ≤ width) : (x + b.setWidth width <<< (8 * n)).toNat = x.toNat + b.toNat * 2 ^ (8 * n) := by
  have byte := byte_shiftLeft_toNat b room
  have top : (b.toNat + 1) * 2 ^ (8 * n) ≤ 2 ^ 8 * 2 ^ (8 * n) := Nat.mul_le_mul_right _ b.isLt
  have noWrap : x.toNat + (b.setWidth width <<< (8 * n)).toNat < 2 ^ width := by
    refine Nat.lt_of_lt_of_le ?_ (byteRange_mul_weight_le room)
    rw [Nat.add_one_mul] at top
    omega
  rw [BitVec.toNat_add_of_lt noWrap, byte]

/-- The stream's value is the sum of the bytes at their weights (R35). -/
theorem bitstreamUpTo_toNat (buf : Vector Byte 33) (n : Nat) (hn : n ≤ 33) :
    (bitstreamUpTo buf n).toNat = ∑ i ∈ Finset.range n, (guardedRead buf i).toNat * 2 ^ (8 * i) := by
  induction n with
  | zero => rw [Finset.sum_range_zero, bitstreamUpTo, List.take_zero, List.foldl_nil, BitVec.toNat_zero]
  | succ n ih =>
    have le := Nat.le_of_lt hn
    rw [bitstreamUpTo_succ buf n hn, add_byte_shiftLeft_toNat _ _ (bitstreamUpTo_lt buf n le) (by omega), ih le,
      Finset.sum_range_succ, guardedRead_of_lt hn]

/-- Settles O39: the value from the sum that never wraps, the bits from the bytes' disjoint places. -/
theorem streamBitsAreBufferBits : Obligations.StreamBitsAreBufferBits := by
  intro buf
  refine ⟨?_, fun i j => ?_⟩
  · have value := bitstreamUpTo_toNat buf 33 (Nat.le_refl _)
    rw [bitstreamUpTo_all, ← Fin.sum_univ_eq_sum_range] at value
    exact value.trans (Finset.sum_congr rfl fun i _ => by rw [guardedRead_of_lt i.isLt]; rfl)
  · rw [bitstream_getLsbD, Nat.mul_add_div (by decide), Nat.div_eq_of_lt j.isLt, Nat.add_zero, guardedRead_of_lt i.isLt,
      Nat.mul_add_mod, Nat.mod_eq_of_lt j.isLt]
    rfl

end Sys2Proof.Machine
end

section
/-!
SUPPORT. A command as an opcode and two operands, read back from its word (R49, R53), and a word as the fixed bits of its row and
the operand bits the row leaves free (R48).
-/

namespace Sys2Proof

open Sys2Proof.Laws

/-! A command's opcode and operands -/

/-- The command's `OP`, which is its row's place in the opcode map (R49). -/
def Instr.opcode : Instr → Nat
  | .nop => 0
  | .wdig _ _ => 1
  | .wbuf _ _ => 2
  | .asm => 3
  | .step => 4
  | .run => 5
  | .rseed _ => 6
  | .rbuf _ => 7
  | .rdig _ => 8
  | .rstat => 9
  | .clr => 10

/-- The command's `IDX`, 0 where it uses none (R48). -/
def Instr.indexOperand : Instr → Byte
  | .wdig idx _ | .wbuf idx _ | .rseed idx | .rbuf idx | .rdig idx => idx
  | .nop | .asm | .step | .run | .rstat | .clr => 0#8

/-- The command's `DATA`, 0 where it uses none (R48). -/
def Instr.dataOperand : Instr → Byte
  | .wdig _ data | .wbuf _ data => data
  | .nop | .asm | .step | .run | .rseed _ | .rbuf _ | .rdig _ | .rstat | .clr => 0#8

theorem Instr.fitsIdx_indexOperand {i : Instr} (h : i.wf = true) : fitsIdx i.indexOperand = true := by
  cases i with
  | wdig | wbuf | rseed | rbuf | rdig => exact h
  | nop | asm | step | run | rstat | clr => rfl

theorem encode_eq_placeFields (i : Instr) :
    encode i = placeFields (BitVec.ofNat 32 i.opcode) (i.indexOperand.setWidth 32) (i.dataOperand.setWidth 32) := by
  cases i <;> rfl

/-- The row at a command's opcode builds that command from its operands. -/
theorem build_operands (i : Instr) :
    opcodeMap[i.opcode]?.map (fun row => row.build i.indexOperand i.dataOperand) = some i := by
  cases i <;> rfl

/-! The fields of a command's word -/

theorem Instr.opcode_lt (i : Instr) : i.opcode < 16 := by
  cases i <;> simp [opcode]

theorem opField_opcode {op : Nat} (h : op < 16) : (opField (BitVec.ofNat 32 op <<< 28)).toNat = op := by
  rw [opField_toNat, BitVec.toNat_ushiftRight, BitVec.toNat_shiftLeft, BitVec.toNat_ofNat, Nat.shiftLeft_eq,
    Nat.shiftRight_eq_div_pow]
  omega

theorem idxField_opcode (op : Word) : idxField (op <<< 28) = 0#8 := by
  ext j hj
  simp [idxField]
  omega

theorem dataField_opcode (op : Word) : dataField (op <<< 28) = 0#8 := by
  ext j hj
  simp [dataField]
  omega

theorem opField_encode {i : Instr} (h : i.wf = true) : (opField (encode i)).toNat = i.opcode := by
  rw [encode_eq_placeFields, placeFields, opField_or, opField_or, opField_idx _ (Instr.fitsIdx_indexOperand h), opField_data,
    BitVec.or_zero, BitVec.or_zero, opField_opcode i.opcode_lt]

theorem idxField_encode {i : Instr} (h : i.wf = true) : idxField (encode i) = i.indexOperand := by
  rw [encode_eq_placeFields, placeFields, idxField_or, idxField_or, idxField_opcode, idxField_data, BitVec.zero_or,
    BitVec.or_zero, idxField_idx _ (Instr.fitsIdx_indexOperand h)]

theorem dataField_encode (i : Instr) : dataField (encode i) = i.dataOperand := by
  rw [encode_eq_placeFields, placeFields, dataField_or, dataField_or, dataField_opcode, dataField_idx, dataField_data,
    BitVec.zero_or, BitVec.zero_or]

/-! From a command to its word and back -/

theorem encode_in_row (i : Instr) : EncodeInRow.Statement i := by
  cases i with
  | nop => exact EncodeInRow.nop
  | wdig idx data => exact EncodeInRow.wdig idx data
  | wbuf idx data => exact EncodeInRow.wbuf idx data
  | asm => exact EncodeInRow.asm
  | step => exact EncodeInRow.step
  | run => exact EncodeInRow.run
  | rseed idx => exact EncodeInRow.rseed idx
  | rbuf idx => exact EncodeInRow.rbuf idx
  | rdig idx => exact EncodeInRow.rdig idx
  | rstat => exact EncodeInRow.rstat
  | clr => exact EncodeInRow.clr

/-- Settles O1: a command's word lies in the row of its own opcode, which builds the command again from the operands that the
fields of the word give back. -/
theorem encodedCommandDecodesToItself : Obligations.EncodedCommandDecodesToItself := by
  intro i h
  obtain ⟨row, hrow, hmask⟩ := encode_in_row i h
  have built := build_operands i
  rw [← opField_encode h, hrow] at built
  refine decode_eq_ok_iff.mpr ⟨row, hrow, hmask, ?_⟩
  rw [idxField_encode h, dataField_encode]
  exact (Option.some.inj built).symm

/-- Settles O5: each word is the encoding of its command. -/
theorem specWordsDecode : Obligations.SpecWordsDecode :=
  ⟨encodedCommandDecodesToItself .nop rfl, encodedCommandDecodesToItself (.wdig 5#8 0xAB#8) rfl,
    encodedCommandDecodesToItself (.wbuf 32#8 0x80#8) rfl, encodedCommandDecodesToItself .asm rfl,
    encodedCommandDecodesToItself .step rfl, encodedCommandDecodesToItself (.rseed 22#8) rfl,
    encodedCommandDecodesToItself .clr rfl⟩

/-! From a word to its command and back -/

/-- What a row builds from an index that fits is well formed. -/
theorem wf_build {row : OpcodeRow} (hrow : row ∈ opcodeMap) {idx : Byte} (h : fitsIdx idx = true) (data : Byte) :
    (row.build idx data).wf = true := by
  revert row
  simp [opcodeMap, Instr.wf, h]

/-- The encoding of what a row reads from a word is the row's pattern with the word's bits wherever the mask leaves them free. -/
theorem encode_build {row : OpcodeRow} (hrow : row ∈ opcodeMap) (w : Word) :
    encode (row.build (idxField w) (dataField w)) = row.pattern ||| (w &&& ~~~row.mask) := by
  revert row
  simp [opcodeMap, encode, placeFields, and_idx_mask, and_operand_mask, BitVec.or_assoc]

/-- Settles O2: the bits under the mask are the row's pattern, and the others are the command's operands in their places. -/
theorem decodedWordIsItsEncoding : Obligations.DecodedWordIsItsEncoding := by
  intro w i h
  obtain ⟨row, hrow, hw, rfl⟩ := decode_eq_ok_iff.mp h
  have mem := List.mem_of_getElem? hrow
  refine ⟨wf_build mem (idxField_fits w) _, ?_⟩
  rw [encode_build mem, ← hw, mask_or_mask_not]

end Sys2Proof
end

section
/-!
SUPPORT. The words that decode to no command (R48, R50).
-/

namespace Sys2Proof.Machine

open Sys2Proof Sys2Proof.Claims

theorem opOf_eq (w : Word) : opOf w = (opField w).toNat := (opField_toNat w).symm

theorem issue_of_illegalOp {w : Word} (h : decode w = .error .illegalOp) (s : State) :
    issue w s = .next (afterError 1#3 s) := issue_of_error h s

theorem issue_of_rsvNonzero {w : Word} (h : decode w = .error .rsvNonzero) (s : State) :
    issue w s = .next (afterError 2#3 s) := issue_of_error h s

/-- Settles O3: the map has rows for the opcodes below 0xB alone, and each of the decoder's three answers has its own effect. -/
theorem reservedOpcodesRaiseIllegalOp : Obligations.ReservedOpcodesRaiseIllegalOp := by
  refine ⟨fun w s reserved => ?_, fun w => ?_⟩
  · exact issue_of_illegalOp (decode_eq_illegalOp_iff.mpr (opOf_eq w ▸ reserved)) s
  · rcases decode_cases w with ⟨i, h⟩ | h | h
    · exact .inl ⟨i, h, issue_of_ok h⟩
    · exact .inr (.inl ⟨h, issue_of_illegalOp h⟩)
    · exact .inr (.inr ⟨h, issue_of_rsvNonzero h⟩)

/-- Every bit that must be 0 for an opcode is under the mask of its row, where the pattern is 0 (R48, R49). -/
theorem mustBeZero_in_row (op : Fin opcodeMap.length) :
    opcodeMap[op].mask &&& mustBeZero op = mustBeZero op ∧ opcodeMap[op].pattern &&& mustBeZero op = 0#32 := by
  revert op; decide

theorem and_mustBeZero_of_decode {w : Word} {i : Instr} (h : decode w = .ok i) : w &&& mustBeZero (opOf w) = 0#32 := by
  obtain ⟨row, hrow, hw, -⟩ := decode_eq_ok_iff.mp h
  obtain ⟨lt, rfl⟩ := List.getElem?_eq_some_iff.mp hrow
  obtain ⟨masked, zero⟩ := mustBeZero_in_row ⟨_, lt⟩
  rw [opOf_eq]
  calc w &&& mustBeZero (opField w).toNat
      = w &&& (opcodeMap[(opField w).toNat].mask &&& mustBeZero (opField w).toNat) := congrArg (w &&& ·) masked.symm
    _ = opcodeMap[(opField w).toNat].pattern &&& mustBeZero (opField w).toNat := by rw [← BitVec.and_assoc, hw]
    _ = 0#32 := zero

/-- Settles O4: such a word has a row, so its opcode is no error, but a command's word has none of those bits. -/
theorem nonzeroReservedBitsSuppressCommand : Obligations.NonzeroReservedBitsSuppressCommand := by
  intro w s lt nonzero
  rcases decode_cases w with ⟨i, h⟩ | h | h
  · exact absurd (and_mustBeZero_of_decode h) nonzero
  · have ge := decode_eq_illegalOp_iff.mp h
    rw [← opOf_eq] at ge
    exact absurd lt (Nat.not_lt.mpr ge)
  · exact issue_of_rsvNonzero h s

end Sys2Proof.Machine
end

section
/-!
SUPPORT. From a state of the invariants every command and every step answers a next state: the two faults need a state that the
invariants exclude.
-/

namespace Sys2Proof.Machine

open Sys2Proof Sys2Proof.Claims

variable {s : State}

/-- Below the size of its space or not, an index is answered. -/
theorem answers_of_index {n size : Nat} {r : Result} {f : n < size → State} {t : State} (inRange : ∀ lt, r = .next (f lt))
    (outOfRange : size ≤ n → r = .next t) : ∃ t, r = .next t :=
  (Nat.lt_or_ge n size).elim (fun lt => ⟨_, inRange lt⟩) fun ge => ⟨_, outOfRange ge⟩

theorem extraction_answers {f : State → State} (h : s.k.toNat ≤ 24) : ∃ t, extraction f s = .next t := by
  rcases Nat.lt_or_eq_of_le h with lt | eq
  · exact ⟨_, extraction_of_lt lt⟩
  · exact ⟨_, extraction_of_eq eq⟩

/-- With a value in every valid seed, `RSEED` always answers. -/
theorem execRseed_answers {idx : Byte} (h : s.SeedInv) : ∃ t, execRseed idx s = .next t := by
  rcases Nat.lt_or_ge idx.toNat 24 with lt | ge
  · rcases Nat.lt_or_ge idx.toNat s.k.toNat with valid | invalid
    · exact ⟨_, execRseed_of_valid lt valid (h ⟨idx.toNat, lt⟩ valid)⟩
    · exact ⟨_, execRseed_of_invalid lt invalid⟩
  · exact ⟨_, exec_rseed_of_ge ge⟩

theorem exec_answers (i : Instr) (h : s.Inv) : ∃ t, exec i s = .next t := by
  obtain ⟨⟨hk, -⟩, -, hseed, -⟩ := h
  cases i with
  | wdig => exact answers_of_index exec_wdig_of_lt exec_wdig_of_ge
  | wbuf => exact answers_of_index exec_wbuf_of_lt exec_wbuf_of_ge
  | rbuf => exact answers_of_index exec_rbuf_of_lt exec_rbuf_of_ge
  | rdig => exact answers_of_index exec_rdig_of_lt exec_rdig_of_ge
  | step | run => exact extraction_answers hk
  | rseed => exact execRseed_answers hseed
  | nop | asm | rstat | clr => exact ⟨_, rfl⟩

theorem issue_answers (w : Word) (h : s.Inv) : ∃ t, issue w s = .next t := by
  cases hd : decode w with
  | ok i => rw [issue_of_ok hd]; exact exec_answers i h
  | error c => exact ⟨_, issue_of_error hd s⟩

/-- Settles O36: `K` is at most 24 and every valid seed holds a value, which excludes the two faults. -/
theorem noStepStopsTheMachine : Obligations.NoStepStopsTheMachine := by
  intro s h
  cases hs : s.inputs with
  | nil => exact ⟨s, by simp only [step, acceptNext, hs]⟩
  | cons x rest =>
    rw [step_of_inputs hs]
    cases x with
    | command w => exact issue_answers w (inv_keptByUpdates.inputs s rest h)
    | rst => exact ⟨_, rfl⟩

end Sys2Proof.Machine
end

section
/-!
SUPPORT. The assembler's lines over operands already read (R53), and the expansions of the pseudo-instructions (R54).
-/

namespace Sys2Proof.Machine

open Sys2Proof

/-! Expansions -/

/-- One command for every index of a space. -/
theorem map_finRange_spec {n : Nat} {l : List Instr} {f : Fin n → Instr} (h : l = (List.finRange n).map f) :
    l.length = n ∧ ∀ i : Fin n, l[i.val]? = some (f i) := by
  subst h; simp

/-- Settles O48: but for `EXTRACT`, each is one command for every index of its space. -/
theorem pseudoInstructionsExpand : Obligations.PseudoInstructionsExpand :=
  ⟨fun _ => map_finRange_spec rfl, fun _ => map_finRange_spec rfl, fun _ => map_finRange_spec rfl, rfl,
    map_finRange_spec rfl⟩

/-! Operands in their places, in numbers -/

theorem ofNat_setWidth_toNat {n : Nat} (h : n ≤ 255) : ((BitVec.ofNat 8 n).setWidth 32).toNat = n := by
  rw [BitVec.toNat_setWidth_of_le (by decide), BitVec.toNat_ofNat, Nat.mod_eq_of_lt (Nat.lt_succ_of_le h)]

/-- Fields that fit do not overlap, so the word is the sum of them at their weights. -/
theorem placeFields_eq_ofNat {op idx data : Nat} (hop : op < 16) (hidx : idx ≤ 63) (hdata : data ≤ 255) :
    placeFields (BitVec.ofNat 32 op) ((BitVec.ofNat 8 idx).setWidth 32) ((BitVec.ofNat 8 data).setWidth 32)
      = BitVec.ofNat 32 (op * 2 ^ 28 + idx * 2 ^ 16 + data) := by
  have op_toNat : (BitVec.ofNat 32 op).toNat = op := Nat.mod_eq_of_lt (by omega)
  have idx_toNat := ofNat_setWidth_toNat (show idx ≤ 255 by omega)
  have data_toNat := ofNat_setWidth_toNat hdata
  have operands := toNat_or_shiftLeft ((BitVec.ofNat 8 data).setWidth 32) ((BitVec.ofNat 8 idx).setWidth 32) 16
    (by omega) (by omega)
  apply BitVec.eq_of_toNat_eq
  rw [placeFields, BitVec.or_comm, BitVec.or_comm (BitVec.ofNat 32 op <<< 28), ← BitVec.or_assoc,
    toNat_or_shiftLeft _ _ _ (by omega) (by omega), operands, op_toNat, idx_toNat, data_toNat, BitVec.toNat_ofNat]
  omega

theorem lineIndexData_eq {build : Byte → Byte → Instr} {op : Nat} (hop : op < 16)
    (hbuild : ∀ idx data, encode (build idx data) = placeFields (BitVec.ofNat 32 op) (idx.setWidth 32) (data.setWidth 32))
    (idx data : Nat) : lineIndexData build [idx, data]
      = if idx ≤ 63 ∧ data ≤ 255 then some [BitVec.ofNat 32 (op * 2 ^ 28 + idx * 2 ^ 16 + data)] else none := by
  by_cases hidx : idx ≤ 63
  · by_cases hdata : data ≤ 255
    · simp [lineIndexData, asIndex, asByte, hidx, hdata, hbuild, placeFields_eq_ofNat hop hidx hdata]
    · simp [lineIndexData, asByte, hdata]
  · simp [lineIndexData, asIndex, hidx]

theorem lineIndex_eq {build : Byte → Instr} {op : Nat} (hop : op < 16)
    (hbuild : ∀ idx, encode (build idx) = placeFields (BitVec.ofNat 32 op) (idx.setWidth 32) ((0#8).setWidth 32)) (idx : Nat) :
    lineIndex build [idx] = if idx ≤ 63 then some [BitVec.ofNat 32 (op * 2 ^ 28 + idx * 2 ^ 16)] else none := by
  by_cases hidx : idx ≤ 63
  · have placed := placeFields_eq_ofNat (data := 0) hop hidx (Nat.zero_le _)
    rw [Nat.add_zero] at placed
    simp only [lineIndex, asIndex, if_pos hidx, Option.map_some, hbuild, placed]
  · simp [lineIndex, asIndex, hidx]

/-- Settles O49: two operand forms, each with the opcode of its line. -/
theorem assemblerPlacesOrRejectsOperands : Obligations.AssemblerPlacesOrRejectsOperands := fun idx data =>
  ⟨lineIndexData_eq (by decide) (fun _ _ => rfl) idx data, lineIndexData_eq (by decide) (fun _ _ => rfl) idx data,
    lineIndex_eq (by decide) (fun _ => rfl) idx, lineIndex_eq (by decide) (fun _ => rfl) idx,
    lineIndex_eq (by decide) (fun _ => rfl) idx⟩

end Sys2Proof.Machine
end

section
/-!
SUPPORT. Issuing the words of a row of the opcode map (R48, R49), and the load commands.
-/

namespace Sys2Proof.Machine

open Sys2Proof Sys2Proof.Claims

variable {w w' : Word}

/-! The words of a row -/

/-- Every row's mask takes in all of `OP`, and its pattern has the row's place there (R49). -/
theorem opField_in_row (op : Fin opcodeMap.length) :
    opField opcodeMap[op].mask = BitVec.allOnes 4 ∧ (opField opcodeMap[op].pattern).toNat = op := by
  revert op; decide

theorem opField_of_masked {mask pattern : Word} (hmask : opField mask = BitVec.allOnes 4) (hw : w &&& mask = pattern) :
    opField w = opField pattern :=
  calc opField w = opField w &&& opField mask := by rw [hmask, BitVec.and_allOnes]
    _ = opField (w &&& mask) := BitVec.extractLsb'_and.symm
    _ = opField pattern := congrArg opField hw

theorem opField_eq_of_top (h : w >>> 28 = w' >>> 28) : opField w = opField w' :=
  BitVec.eq_of_toNat_eq (by rw [opField_toNat, opField_toNat, h])

/-- A word with a row's `OP` is looked up in that row. -/
theorem opcodeMap_getElem?_of_opField (op : Fin opcodeMap.length) (h : opField w = opField opcodeMap[op].pattern) :
    opcodeMap[(opField w).toNat]? = some opcodeMap[op] := by
  rw [h, (opField_in_row op).2]
  exact List.getElem?_eq_getElem op.isLt

/-- Each row of the opcode map runs its command or raises `RSV_NONZERO`, as R48 and R51 say. -/
theorem encodedAs_row (op : Fin opcodeMap.length) :
    encodedAs opcodeMap[op].pattern opcodeMap[op].mask opcodeMap[op].build := by
  refine fun w s => ⟨fun hw => ?_, fun top hw => ?_⟩
  · have hrow := opcodeMap_getElem?_of_opField op (opField_of_masked (opField_in_row op).1 hw)
    exact issue_of_ok (decode_eq_ok_iff.mpr ⟨_, hrow, hw, rfl⟩) s
  · have hrow := opcodeMap_getElem?_of_opField op (opField_eq_of_top top)
    exact issue_of_rsvNonzero (decode_eq_rsvNonzero_iff.mpr ⟨_, hrow, hw⟩) s

/-! The load commands -/

/-- Settles O15: row 1 of the opcode map, and the two sides of the digest's size. -/
theorem wdigWritesOneDigestByte : Obligations.WdigWritesOneDigestByte :=
  ⟨encodedAs_row ⟨1, by decide⟩, fun _ _ _ => exec_wdig_of_lt, fun _ _ _ => exec_wdig_of_ge⟩

/-- Settles O16: row 2 of the opcode map, and the two sides of the buffer's size. -/
theorem wbufWritesByteAndResetsCursor : Obligations.WbufWritesByteAndResetsCursor :=
  ⟨encodedAs_row ⟨2, by decide⟩, fun _ _ _ => exec_wbuf_of_lt, fun _ _ _ => exec_wbuf_of_ge⟩

end Sys2Proof.Machine
end

section
/-!
SUPPORT. The buffer that `ASM` writes (R57), what a write of `BUF` does to the seeds (R58, R92), and `RUN` after it (R66).
-/

namespace Sys2Proof.Machine

open Sys2Proof Sys2Proof.Claims

variable {s t : State}

/-! The assembled buffer -/

theorem reversedWithChecksum_getElem (dig : Vector Byte 32) (i : Nat) (h : i < 32) :
    (reversedWithChecksum dig)[i] = dig[31 - i] := by
  simp [reversedWithChecksum, Nat.le_of_lt_succ h]

theorem reversedWithChecksum_last (dig : Vector Byte 32) : (reversedWithChecksum dig)[32] = dig[31] := by
  simp [reversedWithChecksum]

/-- Settles O17: row 3 of the opcode map, and the assembled buffer byte by byte. -/
theorem asmReversesDigestAndCopiesLastByte : Obligations.AsmReversesDigestAndCopiesLastByte :=
  ⟨encodedAs_row ⟨3, by decide⟩, fun s =>
    ⟨reversedWithChecksum s.dig, exec_asm_eq, fun i => reversedWithChecksum_getElem s.dig i i.isLt,
      reversedWithChecksum_last s.dig⟩⟩

/-- Settles O31: a write of `BUF` puts `K` at 0, and no index is below that. -/
theorem bufferWriteInvalidatesSeeds : Obligations.BufferWriteInvalidatesSeeds := by
  intro s t idx lt h
  obtain ⟨hk, -⟩ := atCursorStart_of_exec (h.imp_right .inr)
  exact execRseed_of_invalid lt (by rw [hk]; exact Nat.zero_le _)

/-! `RUN` over any buffer, whatever the error latch holds -/

/-- From a cursor whose valid seeds are fields of the buffer, the loop ends with all 24 fields. -/
theorem iterWhile_seed_eq_streamField (hcursor : s.CursorInv) (hseed : s.SeedInv) (j : Fin 24) :
    (iterWhile 24 s).seed[j] = some (streamField s.buf j.val) := by
  obtain ⟨-, kept⟩ : (iterWhile 24 s).CursorInv ∧ (iterWhile 24 s).SeedInv :=
    iterWhile_induction (P := fun t => t.CursorInv ∧ t.SeedInv)
      (fun _ lt ⟨hc, hs⟩ => ⟨iter_cursorInv hc lt, iter_seedInv hc hs lt⟩) 24 s ⟨hcursor, hseed⟩
  have end_k := iterWhile_k_toNat 24 s hcursor.1 (Nat.le_add_left _ _)
  rw [kept j (by rw [end_k]; exact j.isLt), iterWhile_buf]

/-- At the cursor start no seed is valid. -/
theorem seedInv_of_atCursorStart (h : atCursorStart s) : s.SeedInv := by
  intro j hj
  rw [h.1] at hj
  exact absurd hj (Nat.not_lt_zero _)

/-- From the cursor start `RUN` completes and stores every field of the buffer, whatever else the state holds. -/
theorem exec_run_of_atCursorStart (h : atCursorStart s) :
    exec .run s = .next (iterWhile 24 s) ∧ ∀ j : Fin 24, (iterWhile 24 s).seed[j] = some (streamField s.buf j.val) :=
  ⟨exec_run_of_lt (by rw [h.1]; decide),
    iterWhile_seed_eq_streamField (cursorInv_of_atCursorStart h) (seedInv_of_atCursorStart h)⟩

/-! The stream of the assembled buffer -/

/-- A field that runs from bit `o` of byte `i` into the next byte is the upper `lo` bits of the one under the lower `hi` of the
other (R35). -/
theorem bitstream_extract_two_bytes (buf : Vector Byte 33) (i : Nat) {o lo hi : Nat} (full : o + lo = 8) (fits : hi ≤ 8) :
    (bitstream buf).extractLsb' (8 * i + o) (hi + lo)
      = (guardedRead buf (i + 1)).extractLsb' 0 hi ++ (guardedRead buf i).extractLsb' o lo := by
  apply BitVec.eq_of_getLsbD_eq
  intro j hj
  rw [BitVec.getLsbD_extractLsb', bitstream_getLsbD, BitVec.getLsbD_append, BitVec.getLsbD_extractLsb',
    BitVec.getLsbD_extractLsb']
  rcases Nat.lt_or_ge j lo with lt | ge
  · rw [show (8 * i + o + j) / 8 = i by omega, show (8 * i + o + j) % 8 = o + j by omega]
    simp [hj, lt]
  · rw [show (8 * i + o + j) / 8 = i + 1 by omega, show (8 * i + o + j) % 8 = j - lo by omega]
    simp [hj, Nat.not_lt.mpr ge, show j - lo < hi by omega]

/-- The digest's reversal and copy as one number (R57, R66). -/
theorem bitstream_reversedWithChecksum_toNat (dig : Vector Byte 32) :
    (bitstream (reversedWithChecksum dig)).toNat
      = (∑ i : Fin 32, dig[31 - i.val].toNat * 2 ^ (8 * i.val)) + dig[31].toNat * 2 ^ 256 := by
  rw [(streamBitsAreBufferBits (reversedWithChecksum dig)).1, Fin.sum_univ_castSucc]
  refine congrArg₂ (· + ·) (Finset.sum_congr rfl fun i _ => ?_) ?_
  · simp only [Fin.getElem_fin, Fin.val_castSucc, reversedWithChecksum_getElem dig i i.isLt]
  · simp only [Fin.getElem_fin, Fin.val_last, reversedWithChecksum_last, Nat.reduceMul]

theorem streamField_reversedWithChecksum_first (dig : Vector Byte 32) :
    streamField (reversedWithChecksum dig) 0 = dig[30].extractLsb' 0 3 ++ dig[31] := by
  have bytes := bitstream_extract_two_bytes (reversedWithChecksum dig) 0 (o := 0) (lo := 8) (hi := 3) rfl (by decide)
  rw [guardedRead_of_lt (by decide), guardedRead_of_lt (by decide), reversedWithChecksum_getElem dig 1 (by decide),
    reversedWithChecksum_getElem dig 0 (by decide), BitVec.extractLsb'_eq_self] at bytes
  exact bytes

theorem streamField_reversedWithChecksum_last (dig : Vector Byte 32) :
    streamField (reversedWithChecksum dig) 23 = dig[31] ++ dig[0].extractLsb' 5 3 := by
  have bytes := bitstream_extract_two_bytes (reversedWithChecksum dig) 31 (o := 5) (lo := 3) (hi := 8) rfl (by decide)
  rw [guardedRead_of_lt (by decide), guardedRead_of_lt (by decide), reversedWithChecksum_last,
    reversedWithChecksum_getElem dig 31 (by decide), BitVec.extractLsb'_eq_self] at bytes
  exact bytes

/-- Settles O43: `ASM` leaves the cursor at its start, so `RUN` stores every field of the assembled buffer's stream; the first and
the last field each span two of its bytes. -/
theorem assemblyThenRunGivesDigestFields : Obligations.AssemblyThenRunGivesDigestFields := by
  intro s
  obtain ⟨run, fields⟩ :=
    exec_run_of_atCursorStart (atCursorStart_cursorReset { s with buf := reversedWithChecksum s.dig })
  refine ⟨_, _, exec_asm_eq, run, ?_, fun j => ?_, ?_, ?_⟩
  · rw [iterWhile_buf]; exact bitstream_reversedWithChecksum_toNat s.dig
  · rw [iterWhile_buf]; exact fields j
  · exact (fields 23).trans (congrArg some (streamField_reversedWithChecksum_last s.dig))
  · exact (fields 0).trans (congrArg some (streamField_reversedWithChecksum_first s.dig))

end Sys2Proof.Machine
end

section
/-!
SUPPORT. The extraction commands: one iteration in numbers (R59, R60), `RUN` as that iteration repeated (R61), and what a complete
extraction leaves (R63, R64).
-/

namespace Sys2Proof.Machine

open Sys2Proof Sys2Proof.Claims

variable {s : State}

/-! One iteration, in numbers -/

theorem guardedRead_toNat (buf : Vector Byte 33) (i : Nat) : (guardedRead buf i).toNat = byteOrZero buf i := by
  rcases Nat.lt_or_ge i 33 with lt | ge
  · simp [byteOrZero, guardedRead_of_lt lt, lt]
  · simp [byteOrZero, guardedRead_of_ge ge, ge]

theorem fieldAt_toNat_eq_fieldValue (buf : Vector Byte 33) (o : BitVec 6) (shift : BitVec 3) :
    (fieldAt buf o shift).toNat = fieldValue buf o.toNat shift.toNat := by
  simp only [fieldAt_toNat, leWord_toNat, guardedRead_toNat, fieldValue]

theorem zfAfter_eq_ite (zf : Bool) (v : SeedVal) : zfAfter zf v = if v.toNat = 0 then true else zf := by
  have hz : v = 0#11 ↔ v.toNat = 0 := BitVec.toNat_inj.symm
  rw [Bool.eq_iff_iff, zfAfter_eq_true_iff, hz]
  split <;> simp [*]

theorem byteOffsetOf_advance (b : BitVec 9) : byteOffsetOf (b + 11#9) = BitVec.ofNat 6 ((b.toNat + 11) / 8) := by
  apply BitVec.eq_of_toNat_eq
  rw [byteOffsetOf_toNat, BitVec.toNat_add, BitVec.toNat_ofNat, BitVec.toNat_ofNat]
  omega

theorem bitShiftOf_advance (b : BitVec 9) :
    bitShiftOf (b + 11#9) (byteOffsetOf (b + 11#9)) = BitVec.ofNat 3 (b.toNat + 11 - (b.toNat + 11) / 8 * 8) := by
  apply BitVec.eq_of_toNat_eq
  rw [bitShiftOf_toNat, BitVec.toNat_add, BitVec.toNat_ofNat, BitVec.toNat_ofNat]
  omega

/-- The model's iteration is the one of R59 in numbers: where `BIT_COUNT` wraps, the two other cursor registers wrap with it. -/
theorem iter_eq_afterIteration (s : State) : iter s = afterIteration s := by
  have hv := fieldAt_toNat_eq_fieldValue s.buf s.byteOffset s.bitShift
  simp only [afterIteration, ← hv, ← zfAfter_eq_ite, ← byteOffsetOf_advance, ← bitShiftOf_advance, BitVec.ofNat_add,
    BitVec.ofNat_toNat, BitVec.setWidth_eq]
  rfl

/-- Settles O18: row 4 of the opcode map, and the two sides of the check on `K`. -/
theorem stepCommandRunsOneIteration : Obligations.StepCommandRunsOneIteration :=
  ⟨encodedAs_row ⟨4, by decide⟩, fun s _ lt => by rw [exec_step_of_lt lt, iter_eq_afterIteration], fun _ => exec_step_of_eq⟩

/-! `RUN` as repeated iterations -/

/-- `RUN`'s fuel covers every iteration that remains (R61). -/
theorem iterWhile_24_eq_iterate (h : s.k.toNat ≤ 24) : iterWhile 24 s = iter^[24 - s.k.toNat] s :=
  iterWhile_eq_iterate 24 s h (Nat.le_add_left _ _)

/-- `RUN` ends with `K = 24` (R61). -/
theorem iterWhile_24_k (h : s.k.toNat ≤ 24) : (iterWhile 24 s).k = 24#5 :=
  (k_eq_24_iff _).mpr (iterWhile_k_toNat 24 s h (Nat.le_add_left _ _))

/-- Settles O19: row 5 of the opcode map, and the loop as an iterate. -/
theorem runCommandRunsRemainingIterations : Obligations.RunCommandRunsRemainingIterations := by
  refine ⟨encodedAs_row ⟨5, by decide⟩, fun s lt => ?_, fun _ => exec_run_of_eq⟩
  rw [← funext iter_eq_afterIteration, ← iterWhile_24_eq_iterate (Nat.le_of_lt lt)]
  exact ⟨exec_run_of_lt lt, iterWhile_24_k (Nat.le_of_lt lt)⟩

/-- As long as `K` stays below 24, each of the `STEP`s in a row runs its iteration (R60). -/
theorem repeatStep_eq_iterate (n : Nat) (h : s.k.toNat + n ≤ 24) : repeatStep n s = .next (iter^[n] s) := by
  induction n generalizing s with
  | zero => rfl
  | succ n ih =>
    have lt : s.k.toNat < 24 := by omega
    simp only [repeatStep, exec_step_of_lt lt]
    rw [ih (by rw [iter_k_toNat lt]; omega), Function.iterate_succ_apply]

/-- Settles O42: `RUN` and the `STEP`s in a row are the same iterate. -/
theorem runEqualsRepeatedStep : Obligations.RunEqualsRepeatedStep := fun s lt => by
  rw [exec_run_of_lt lt, iterWhile_24_eq_iterate (Nat.le_of_lt lt), repeatStep_eq_iterate _ (by omega)]

/-! The complete extraction -/

/-- The loop writes `SEED`, `ZF` and the cursor alone (R28). -/
theorem iterWhile_frame (n : Nat) (s : State) :
    iterWhile n s = { s with
      seed := (iterWhile n s).seed, zf := (iterWhile n s).zf, k := (iterWhile n s).k, bitCount := (iterWhile n s).bitCount,
      byteOffset := (iterWhile n s).byteOffset, bitShift := (iterWhile n s).bitShift } := by
  refine iterWhile_induction (P := fun t => t = { s with
    seed := t.seed, zf := t.zf, k := t.k, bitCount := t.bitCount, byteOffset := t.byteOffset, bitShift := t.bitShift })
    (fun t _ h => ?_) n s rfl
  rw [h]; rfl

/-- Settles O41: the loop keeps the invariants and ends at `K = 24`, where they fix the cursor and speak of all 24 seeds. -/
theorem runCompletesExtraction : Obligations.RunCompletesExtraction := by
  intro s h lt
  obtain ⟨end_cursor, -, -, end_zf⟩ := iterWhile_induction (P := State.Inv) (fun _ lt h => iter_inv h lt) 24 s h
  obtain ⟨hcursor, -, hseed, -⟩ := h
  have hk := iterWhile_24_k (Nat.le_of_lt lt)
  obtain ⟨hcount, hoffset, hshift⟩ := end_cursor.at_end hk
  have fields := iterWhile_seed_eq_streamField hcursor hseed
  refine ⟨(iterWhile 24 s).seed, (iterWhile 24 s).zf, ?_, fields, ?_⟩
  · rw [exec_run_of_lt lt, ← hk, ← hcount, ← hoffset, ← hshift, ← iterWhile_frame]
  · refine end_zf.trans (exists_congr fun j => ?_)
    rw [hk, fields j]
    simp [streamField]

/-! Both ends of the value range -/

/-- In a buffer of one byte repeated, every bit of a field is a bit of that byte (R35). -/
theorem streamField_replicate_getLsbD (b : Byte) (j : Fin 24) {i : Nat} (hi : i < 11) :
    (streamField (Vector.replicate 33 b) j.val).getLsbD i = b.getLsbD ((11 * j.val + i) % 8) := by
  rw [streamField, BitVec.getLsbD_extractLsb', bitstream_getLsbD, guardedRead_of_lt (by omega), Vector.getElem_replicate]
  simp [hi]

theorem streamField_replicate_allOnes (j : Fin 24) : streamField (Vector.replicate 33 0xFF#8) j.val = 2047#11 := by
  apply BitVec.eq_of_getLsbD_eq
  intro i hi
  rw [streamField_replicate_getLsbD _ j hi, show 0xFF#8 = BitVec.allOnes 8 from rfl, show 2047#11 = BitVec.allOnes 11 from rfl,
    BitVec.getLsbD_allOnes, BitVec.getLsbD_allOnes]
  simp [hi, Nat.mod_lt]

theorem streamField_replicate_zero (j : Fin 24) : streamField (Vector.replicate 33 0x00#8) j.val = 0#11 := by
  apply BitVec.eq_of_getLsbD_eq
  intro i hi
  rw [streamField_replicate_getLsbD _ j hi, BitVec.getLsbD_zero, BitVec.getLsbD_zero]

/-- Settles O45: from the cursor start `RUN` stores the fields of the stream, here all ones or all zeros. -/
theorem valueRangeEndsAreReached : Obligations.ValueRangeEndsAreReached := by
  intro s h
  obtain ⟨run, fields⟩ := exec_run_of_atCursorStart h
  exact ⟨fun hbuf => ⟨_, run, fun j => by rw [fields j, hbuf, streamField_replicate_allOnes]⟩,
    fun hbuf => ⟨_, run, fun j => by rw [fields j, hbuf, streamField_replicate_zero]⟩⟩

end Sys2Proof.Machine
end

section
/-!
SUPPORT. The readback commands: the fields of the status word (R26, R70), and the reads of `SEED`, `BUF` and `DIG` (R67 to R69).
-/

namespace Sys2Proof.Machine

open Sys2Proof Sys2Proof.Claims

/-! The status word -/

/-- The row of R26 at the sum of its parts' widths, which is 32: the form the rules for `++` apply to. -/
theorem State.status_eq_cast (s : State) :
    s.status = (s.bitCount ++ 0#1 ++ s.byteOffset ++ 0#1 ++ s.bitShift ++ 0#1 ++ s.err ++ 0#1
      ++ BitVec.ofBool s.zf ++ BitVec.ofBool s.done ++ s.k).cast rfl := rfl

/-- Each register starts where the parts below it end. -/
theorem State.status_registers (s : State) :
    s.status.extractLsb' 0 5 = s.k ∧ s.status.extractLsb' 8 3 = s.err ∧ s.status.extractLsb' 12 3 = s.bitShift
      ∧ s.status.extractLsb' 16 6 = s.byteOffset ∧ s.status.extractLsb' 23 9 = s.bitCount := by
  simp only [State.status_eq_cast, BitVec.extractLsb'_cast, BitVec.extractLsb'_append_eq_of_le,
    BitVec.extractLsb'_append_eq_right, BitVec.extractLsb'_eq_self, Nat.reduceLeDiff, Nat.reduceSub, and_self]

theorem State.status_flags (s : State) : s.status.getLsbD 5 = s.done ∧ s.status.getLsbD 6 = s.zf := by
  simp only [State.status_eq_cast, BitVec.getLsbD_cast, BitVec.getLsbD_append, BitVec.getLsbD_ofBool, Nat.reduceLT,
    Nat.reduceSub, if_false, if_true, decide_true, Bool.true_and, and_self]

theorem State.status_reserved (s : State) :
    s.status.getLsbD 7 = false ∧ s.status.getLsbD 11 = false ∧ s.status.getLsbD 15 = false ∧ s.status.getLsbD 22 = false := by
  simp only [State.status_eq_cast, BitVec.getLsbD_cast, BitVec.getLsbD_append, BitVec.getLsbD_zero, Nat.reduceLT,
    Nat.reduceSub, if_false, if_true, and_self]

/-- A word is answered as it is. -/
theorem State.answer_word (s : State) (v : Word) : s.answer v = { s with dout := v } := by
  rw [State.answer, BitVec.setWidth_eq]

/-- Settles O23: row 9 of the opcode map, and the parts of the status word. -/
theorem rstatReadsStatusFields : Obligations.RstatReadsStatusFields := by
  refine ⟨encodedAs_row ⟨9, by decide⟩, fun s => ?_⟩
  obtain ⟨hk, herr, hshift, hoffset, hcount⟩ := s.status_registers
  obtain ⟨hdone, hzf⟩ := s.status_flags
  obtain ⟨h7, h11, h15, h22⟩ := s.status_reserved
  refine ⟨s.status, by rw [exec_rstat_eq, State.answer_word], hk, ?_, hzf, h7, herr, h11, hshift, h15, hoffset, h22, hcount⟩
  rw [hdone, done_iff, k_eq_24_iff]

/-! The indexed reads -/

/-- Settles O20: row 6 of the opcode map, and the three cases of an index: below `K`, in range but not below `K`, out of
range. -/
theorem rseedReadsValidSeed : Obligations.RseedReadsValidSeed :=
  ⟨encodedAs_row ⟨6, by decide⟩, fun _ _ _ => execRseed_of_valid, fun _ _ => execRseed_of_invalid,
    fun _ _ => exec_rseed_of_ge⟩

/-- Settles O21: row 7 of the opcode map, and the two sides of the buffer's size. -/
theorem rbufReadsBufferByte : Obligations.RbufReadsBufferByte :=
  ⟨encodedAs_row ⟨7, by decide⟩, fun _ _ => exec_rbuf_of_lt, fun _ _ => exec_rbuf_of_ge⟩

/-- Settles O22: row 8 of the opcode map, and the two sides of the digest's size. -/
theorem rdigReadsDigestByte : Obligations.RdigReadsDigestByte :=
  ⟨encodedAs_row ⟨8, by decide⟩, fun _ _ => exec_rdig_of_lt, fun _ _ => exec_rdig_of_ge⟩

end Sys2Proof.Machine
end

section
/-!
SUPPORT. The control commands `NOP` and `CLR` (R71, R72), and the reset input (R87).
-/

namespace Sys2Proof.Machine

open Sys2Proof Sys2Proof.Claims

variable {s : State}

theorem exec_nop_eq : exec .nop s = .next s := rfl

theorem accept_rst_eq : accept .rst s = .next s.clear := rfl

/-- With `K` at 0 no index is below it, so no seed is valid (R13). -/
theorem State.seedAt_clear (s : State) (i : Fin 24) : s.clear.seedAt i = none :=
  State.seedAt_of_ge (Nat.zero_le i.val)

/-- Settles O7: `RST` and `CLR` both answer `State.clear`, which keeps the inputs left after the one taken. -/
theorem resetInputGivesResetState : Obligations.ResetInputGivesResetState := by
  intro s rest hs
  have cleared : State.clear { s with inputs := rest } = { State.reset with inputs := rest } := rfl
  constructor
  · rw [step_of_inputs hs, accept_rst_eq, cleared]
  · rw [exec_clr_eq, cleared]

/-- Settles O14: row 0 of the opcode map, whose mask takes in every bit. -/
theorem nopChangesNothing : Obligations.NopChangesNothing :=
  ⟨encodedAs_row ⟨0, by decide⟩, fun _ => exec_nop_eq⟩

/-- Settles O24: row 10 of the opcode map, and the cleared state, which takes nothing from the state before but the pending
inputs. -/
theorem clrReturnsToResetState : Obligations.ClrReturnsToResetState :=
  ⟨encodedAs_row ⟨10, by decide⟩, fun s => ⟨State.reset.seed, s.clear, exec_clr_eq, rfl, s.seedAt_clear⟩⟩

end Sys2Proof.Machine
end

section
/-!
SUPPORT. Which error a word raises (R75, R78), that a command which raises none passes `ERR` through (R79), and the step with no
input pending (R82).
-/

namespace Sys2Proof.Machine

open Sys2Proof Sys2Proof.Claims

variable {s t : State} {w : Word} {i : Instr} {c : ErrorCode}

/-- Settles O8: the host has nothing for the block to take. -/
theorem nothingHappensWithoutInput : Obligations.NothingHappensWithoutInput := by
  intro s hs
  simp only [step, acceptNext, hs]

/-! The error of a decoded command -/

/-- The error of an index operand in a space of `size` elements (R31). -/
def indexError (size : Nat) (idx : Byte) : Option ErrorCode := if size ≤ idx.toNat then some .indexRange else none

theorem indexError_eq_some_iff {size : Nat} {idx : Byte} :
    indexError size idx = some c ↔ size ≤ idx.toNat ∧ .indexRange = c := by
  rw [indexError, Option.ite_none_right_eq_some, Option.some.injEq]

theorem indexError_eq_none_iff {size : Nat} {idx : Byte} : indexError size idx = none ↔ idx.toNat < size := by
  simp [indexError]

/-- The error of `STEP` and of `RUN` (R60, R61). -/
def sequenceError (s : State) : Option ErrorCode := if s.k.toNat = 24 then some .sequence else none

theorem sequenceError_eq_some_iff : sequenceError s = some c ↔ s.k.toNat = 24 ∧ .sequence = c := by
  rw [sequenceError, Option.ite_none_right_eq_some, Option.some.injEq]

theorem sequenceError_eq_none_iff : sequenceError s = none ↔ s.k.toNat ≠ 24 := by
  simp [sequenceError]

/-- The error of `RSEED`, with `INDEX_RANGE` first (R67, R78). -/
def seedError (idx : Byte) (s : State) : Option ErrorCode :=
  if 24 ≤ idx.toNat then some .indexRange else if s.k.toNat ≤ idx.toNat then some .notReady else none

theorem seedError_of_ge {idx : Byte} (h : 24 ≤ idx.toNat) : seedError idx s = some .indexRange := by
  rw [seedError, if_pos h]

theorem seedError_of_invalid {idx : Byte} (h : idx.toNat < 24) (hk : s.k.toNat ≤ idx.toNat) :
    seedError idx s = some .notReady := by
  rw [seedError, if_neg (Nat.not_le.mpr h), if_pos hk]

theorem seedError_of_valid {idx : Byte} (h : idx.toNat < 24) (hk : idx.toNat < s.k.toNat) : seedError idx s = none := by
  rw [seedError, if_neg (Nat.not_le.mpr h), if_neg (Nat.not_le.mpr hk)]

/-- The error a command raises in a state, of the causes of R75 that are left once its word has decoded. -/
def raisedError (s : State) : Instr → Option ErrorCode
  | .wdig idx _ | .rdig idx => indexError 32 idx
  | .wbuf idx _ | .rbuf idx => indexError 33 idx
  | .rseed idx => seedError idx s
  | .step | .run => sequenceError s
  | .nop | .asm | .rstat | .clr => none

/-- Raising an error is all that a command does then (R77). -/
theorem exec_of_raisedError (h : raisedError s i = some c) : exec i s = .next (s.latch c) := by
  cases i with
  | wdig idx data => obtain ⟨ge, rfl⟩ := indexError_eq_some_iff.mp h; exact exec_wdig_of_ge ge
  | wbuf idx data => obtain ⟨ge, rfl⟩ := indexError_eq_some_iff.mp h; exact exec_wbuf_of_ge ge
  | rbuf idx => obtain ⟨ge, rfl⟩ := indexError_eq_some_iff.mp h; exact exec_rbuf_of_ge ge
  | rdig idx => obtain ⟨ge, rfl⟩ := indexError_eq_some_iff.mp h; exact exec_rdig_of_ge ge
  | step => obtain ⟨eq, rfl⟩ := sequenceError_eq_some_iff.mp h; exact exec_step_of_eq eq
  | run => obtain ⟨eq, rfl⟩ := sequenceError_eq_some_iff.mp h; exact exec_run_of_eq eq
  | rseed idx =>
    change seedError idx s = some c at h
    rcases Nat.lt_or_ge idx.toNat 24 with lt | ge
    · rcases Nat.lt_or_ge idx.toNat s.k.toNat with valid | invalid
      · rw [seedError_of_valid lt valid] at h; cases h
      · rw [seedError_of_invalid lt invalid] at h; cases h; exact execRseed_of_invalid lt invalid
    · rw [seedError_of_ge ge] at h; cases h; exact exec_rseed_of_ge ge
  | nop | asm | rstat | clr => cases h

/-! `ERR` through a command that raises nothing -/

theorem iterWhile_withErr (n : Nat) (s : State) (e : BitVec 3) :
    iterWhile n { s with err := e } = { iterWhile n s with err := e } := by
  induction n generalizing s with
  | zero => rfl
  | succ n ih =>
    simp only [iterWhile]
    split
    · exact ih (iter s)
    · rfl

/-- What a command leaves in `ERR` if it raises nothing (R76, R80). -/
def errAfter (i : Instr) (e : BitVec 3) : BitVec 3 := if i = .clr then 0#3 else e

/-- Whatever `ERR` holds, a command that raises nothing does the same and passes `ERR` through, but `RSTAT` reads it (R79). -/
theorem exec_withErr (hi : i ≠ .rstat) (hnone : raisedError s i = none) (h : exec i s = .next t) (e : BitVec 3) :
    exec i { s with err := e } = .next { t with err := errAfter i e } := by
  cases i with
  | nop => rw [exec_nop_next h]; rfl
  | wdig idx data =>
    have lt := indexError_eq_none_iff.mp hnone
    cases (exec_wdig_of_lt lt).symm.trans h; exact exec_wdig_of_lt lt
  | wbuf idx data =>
    have lt := indexError_eq_none_iff.mp hnone
    cases (exec_wbuf_of_lt lt).symm.trans h; exact exec_wbuf_of_lt lt
  | rbuf idx =>
    have lt := indexError_eq_none_iff.mp hnone
    cases (exec_rbuf_of_lt lt).symm.trans h; exact exec_rbuf_of_lt lt
  | rdig idx =>
    have lt := indexError_eq_none_iff.mp hnone
    cases (exec_rdig_of_lt lt).symm.trans h; exact exec_rdig_of_lt lt
  | asm => rw [exec_asm_next h]; rfl
  | step =>
    rcases exec_step_next h with ⟨lt, rfl⟩ | ⟨eq, -⟩
    · exact exec_step_of_lt lt
    · exact absurd eq (sequenceError_eq_none_iff.mp hnone)
  | run =>
    rcases exec_run_next h with ⟨lt, rfl⟩ | ⟨eq, -⟩
    · rw [errAfter, if_neg (by simp), ← iterWhile_withErr]; exact exec_run_of_lt lt
    · exact absurd eq (sequenceError_eq_none_iff.mp hnone)
  | rseed idx =>
    rcases exec_rseed_next h with ⟨lt, v, hk, hv, rfl⟩ | ⟨lt, hk, -⟩ | ⟨ge, -⟩
    · exact execRseed_of_valid lt hk hv
    · cases (seedError_of_invalid lt hk).symm.trans hnone
    · cases (seedError_of_ge ge).symm.trans hnone
  | rstat => exact absurd rfl hi
  | clr => rw [exec_clr_next h]; rfl

theorem exec_err_of_no_error (hnone : raisedError s i = none) (h : exec i s = .next t) : t.err = errAfter i s.err := by
  by_cases hi : i = .rstat
  · subst hi; rw [exec_rstat_next h]; rfl
  · have same := Host.Outcome.next.inj (h.symm.trans (exec_withErr hi hnone h s.err))
    rw [same]

/-! A word with an error latched -/

/-- An error raised while another is latched has no effect at all (R76). -/
theorem latch_of_latched (s : State) (c : ErrorCode) {e : BitVec 3} (he : e ≠ 0#3) :
    ({ s with err := e } : State).latch c = { ({ s with err := 0#3 } : State).latch c with err := e } := by
  rw [State.latch_of_err_ne_zero he, State.latch_eq]

theorem exec_latched {code : BitVec 3} (hcode : code ≠ 0#3) (hi : i ≠ .rstat)
    (h : exec i { s with err := 0#3 } = .next t) :
    exec i { s with err := code } = .next { t with err := errAfter i code } := by
  cases hr : raisedError s i with
  | none => exact exec_withErr hi (s := { s with err := 0#3 }) hr h code
  | some c =>
    have notClr : i ≠ .clr := by rintro rfl; cases hr
    cases (exec_of_raisedError (s := { s with err := 0#3 }) hr).symm.trans h
    rw [exec_of_raisedError (s := { s with err := code }) hr, latch_of_latched s c hcode, errAfter, if_neg notClr]

theorem decode_eq_clr_iff : decode w = .ok .clr ↔ w = 0xA0000000#32 :=
  ⟨eq_of_decode_clr, fun h => h ▸ encodedCommandDecodesToItself .clr rfl⟩

/-- `RSTAT` has one word (R70). -/
theorem eq_of_decode_rstat (h : decode w = .ok .rstat) : w = 0x90000000#32 :=
  (decodedWordIsItsEncoding w .rstat h).2.symm

/-- Settles O28: a command that raises nothing passes `ERR` through, and an error raised with one latched is not kept. -/
theorem latchedErrorChangesNoOtherEffect : Obligations.LatchedErrorChangesNoOtherEffect := by
  intro w s t code hcode notRstat h
  rcases issue_cases h with ⟨i, hd, h⟩ | ⟨c, hd, rfl⟩
  · have hi : i ≠ .rstat := by rintro rfl; exact notRstat (eq_of_decode_rstat hd)
    have hclr : w = 0xA0000000#32 ↔ i = .clr := by rw [← decode_eq_clr_iff, hd, Except.ok.injEq]
    rw [issue_of_ok hd, exec_latched hcode hi h, errAfter]
    simp only [hclr]
  · have notClr : w ≠ 0xA0000000#32 := by
      intro hw; cases hd.symm.trans (decode_eq_clr_iff.mpr hw)
    rw [issue_of_error hd, latch_of_latched s c hcode, if_neg notClr]

/-! The cause table on words -/

theorem and_op_mask (w : Word) : w &&& 0xF0000000#32 = (opField w).setWidth 32 <<< 28 := by
  apply BitVec.eq_of_getLsbD_eq; intro i hi
  interval_cases i <;> simp [opField]

/-- A row fixes `OP`, at the row's own place, and the bits that must be 0 (R48, R49). -/
theorem row_fixes (op : Fin opcodeMap.length) :
    opcodeMap[op].mask = 0xF0000000#32 ||| mustBeZero op
      ∧ opcodeMap[op].pattern = (BitVec.ofNat 4 op).setWidth 32 <<< 28 := by
  revert op; decide

/-- A word raises `RSV_NONZERO` only for a bit that must be 0 (R48). -/
theorem and_mustBeZero_of_rsvNonzero (h : decode w = .error .rsvNonzero) : w &&& mustBeZero (opOf w) ≠ 0#32 := by
  obtain ⟨row, hrow, hw⟩ := decode_eq_rsvNonzero_iff.mp h
  obtain ⟨lt, rfl⟩ := List.getElem?_eq_some_iff.mp hrow
  obtain ⟨hmask, hpattern⟩ := row_fixes ⟨_, lt⟩
  intro zero
  refine hw ?_
  calc w &&& opcodeMap[(opField w).toNat].mask
      = w &&& (0xF0000000#32 ||| mustBeZero (opField w).toNat) := congrArg (w &&& ·) hmask
    _ = (opField w).setWidth 32 <<< 28 := by
      rw [BitVec.and_or_distrib_left, and_op_mask, ← opOf_eq, zero, BitVec.or_zero]
    _ = opcodeMap[(opField w).toNat].pattern := by
      refine Eq.trans ?_ hpattern.symm
      simp

/-- The two decode errors are the first two causes of R78. -/
theorem errorOf_of_error (h : decode w = .error c) : errorOf w s = some (errorBits c) := by
  rcases decode_cases w with ⟨i, hi⟩ | illegal | rsv
  · rw [hi] at h; cases h
  · cases illegal.symm.trans h
    rw [errorOf, if_pos (opOf_eq w ▸ decode_eq_illegalOp_iff.mp illegal)]; rfl
  · cases rsv.symm.trans h
    have legal : ¬ 0xB ≤ opOf w := by
      rw [opOf_eq, ← decode_eq_illegalOp_iff, rsv]; simp
    rw [errorOf, if_neg legal, if_pos (and_mustBeZero_of_rsvNonzero rsv)]; rfl

theorem opOf_of_decode (h : decode w = .ok i) : opOf w = i.opcode := by
  obtain ⟨wf, rfl⟩ := decodedWordIsItsEncoding w i h
  rw [opOf_eq, opField_encode wf]

theorem shift_and_idx_mask (w : Word) : (w >>> 16) &&& 0x3F#32 = (idxField w).setWidth 32 := by
  apply BitVec.eq_of_getLsbD_eq; intro i hi
  interval_cases i <;> simp [idxField]

theorem index_of_decode (h : decode w = .ok i) : ((w >>> 16) &&& 0x3F#32).toNat = i.indexOperand.toNat := by
  obtain ⟨wf, rfl⟩ := decodedWordIsItsEncoding w i h
  rw [shift_and_idx_mask, idxField_encode wf, BitVec.toNat_setWidth_of_le (by decide)]

/-! The codes of a command's errors (R74) -/

theorem indexError_code (size : Nat) (idx : Byte) :
    (indexError size idx).map errorBits = if size ≤ idx.toNat then some 3#3 else none :=
  apply_ite (Option.map errorBits) _ _ _

theorem sequenceError_code (s : State) : (sequenceError s).map errorBits = if s.k.toNat = 24 then some 4#3 else none :=
  apply_ite (Option.map errorBits) _ _ _

theorem seedError_code (idx : Byte) (s : State) : (seedError idx s).map errorBits =
    if 24 ≤ idx.toNat then some 3#3 else if s.k.toNat ≤ idx.toNat then some 5#3 else none := by
  rw [seedError, apply_ite (Option.map errorBits), apply_ite (Option.map errorBits)]; rfl

/-- The remaining causes of R78 are those of the decoded command. -/
theorem errorOf_of_ok (h : decode w = .ok i) : errorOf w s = (raisedError s i).map errorBits := by
  have zero := and_mustBeZero_of_decode h
  rw [opOf_of_decode h] at zero
  simp only [errorOf, index_of_decode h, opOf_of_decode h, zero, Option.any_eq_true, decide_eq_true_eq]
  cases i with
  | wdig | wbuf | rbuf | rdig => simp [Instr.opcode, Instr.indexOperand, spaceSize, raisedError, indexError_code]
  | step | run => simp [Instr.opcode, spaceSize, raisedError, sequenceError_code]
  | rseed => simp [Instr.opcode, Instr.indexOperand, spaceSize, raisedError, seedError_code]
  | nop | asm | rstat | clr => simp [Instr.opcode, spaceSize, raisedError]

theorem opcode_eq_clr_iff : i.opcode = 0xA ↔ i = .clr := by
  cases i <;> simp [Instr.opcode]

/-- Settles O26: a decode error comes before a command's own, a command that raises an error only latches it, and from a state of
the invariants every other command answers. -/
theorem errorsFollowCauseTable : Obligations.ErrorsFollowCauseTable := by
  intro w s inv
  cases hd : decode w with
  | error c =>
    rw [errorOf_of_error hd, issue_of_error hd]
    refine ⟨fun code h => ?_, fun h => by cases h⟩
    rw [← Option.some.inj h, latch_eq_afterError]
  | ok i =>
    rw [errorOf_of_ok hd, issue_of_ok hd, opOf_of_decode hd]
    refine ⟨fun code h => ?_, fun h => ?_⟩
    · obtain ⟨c, hc, rfl⟩ := Option.map_eq_some_iff.mp h
      rw [exec_of_raisedError hc, latch_eq_afterError]
    · obtain ⟨t, ht⟩ := exec_answers i inv
      refine ⟨t, ht, ?_⟩
      rw [exec_err_of_no_error (Option.map_eq_none_iff.mp h) ht, errAfter]
      simp only [opcode_eq_clr_iff]

end Sys2Proof.Machine
end

section
/-!
SUPPORT. `RUN` and `ASM` with nothing loaded since reset (R89): the digest and the buffer hold zeros.
-/

namespace Sys2Proof.Machine

open Sys2Proof Sys2Proof.Claims

variable {s : State}

theorem reversedWithChecksum_replicate (b : Byte) : reversedWithChecksum (Vector.replicate 32 b) = Vector.replicate 33 b := by
  ext i hi
  simp [reversedWithChecksum]

/-- `ASM` changes nothing in the reset state: its digest reversed is its buffer, and its cursor is at the start. -/
theorem exec_asm_reset : exec .asm State.reset = .next State.reset := by
  rw [exec_asm_eq, State.reset_dig, reversedWithChecksum_replicate]
  rfl

/-- Every field of an all-zero buffer is 0, so a `RUN` over it that has an iteration left sets `ZF` (R19, R64). -/
theorem exec_run_of_zero_buf (inv : s.Inv) (lt : s.k.toNat < 24) (hbuf : s.buf = Vector.replicate 33 0x00#8) :
    ∃ t, exec .run s = .next t ∧ (∀ j : Fin 24, t.seed[j] = some 0#11) ∧ t.zf = true := by
  obtain ⟨seeds, zf, run, fields, zero⟩ := runCompletesExtraction s inv lt
  have field_zero (j : Fin 24) : (bitstream s.buf).extractLsb' (11 * j.val) 11 = 0#11 := by
    rw [hbuf]; exact streamField_replicate_zero j
  exact ⟨_, run, fun j => (fields j).trans (congrArg some (field_zero j)), zero.mpr ⟨0, field_zero 0⟩⟩

/-- Settles O13: `ASM` leaves the reset state as it is, so both runs are one `RUN` over its all-zero buffer. -/
theorem runAfterResetGivesZeros : Obligations.RunAfterResetGivesZeros := by
  obtain ⟨t, run, seeds, zf⟩ := exec_run_of_zero_buf invariantHoldsAtReset (by decide) State.reset_buf
  exact ⟨State.reset, t, t, exec_asm_reset, run, run, fun j => ⟨seeds j, seeds j⟩, zf, zf⟩

end Sys2Proof.Machine
end

section
/-!
SUPPORT. A run of command words (R96) as steps of the machine that take those words from the pending inputs in issue order (R40).
-/

namespace Sys2Proof.Machine

open Sys2Proof Sys2Proof.Claims

variable {s t : State}

theorem step_of_pending_command {w : Word} (rest : List HostInput) (h : issue w s = .next t) :
    step { s with inputs := .command w :: rest } = .next { t with inputs := rest } := by
  rw [step_of_inputs (x := .command w) (rest := rest) rfl]
  exact issue_withInputs (s := s) rest h

theorem repeatMachineStep_succ (n : Nat) (h : step s = .next t) : repeatMachineStep (n + 1) s = repeatMachineStep n t := by
  simp only [repeatMachineStep, h]

/-- Settles O11, by induction on the words: the step that takes a word leaves the later words pending, and the word itself adds no
input. -/
theorem runIsStepsOverPendingCommands : Obligations.RunIsStepsOverPendingCommands := by
  intro words
  induction words with
  | nil =>
    intro s t douts empty h
    obtain ⟨-, rfl⟩ := Prod.mk.inj (Host.Outcome.next.inj h)
    rw [List.map_nil, ← empty]
    rfl
  | cons w ws ih =>
    intro s t douts empty h
    obtain ⟨u, later, hw, hrun, -⟩ := runCommands_cons_next h
    have taken := step_of_pending_command (ws.map .command) hw
    have none_added : u.inputs = [] := (issue_inputs hw).trans empty
    rw [List.map_cons, List.length_cons, repeatMachineStep_succ _ taken]
    exact ih u t later none_added hrun

end Sys2Proof.Machine
end
